-- ==== Sys2Proof/Word.lean ====
section
/-! DEFINITION. The byte, the widths of the numbers the block carries (00_scope.md R6, R8). -/

namespace Sys2Proof

/-- A byte is 8 bits, numbered 7 down to 0 (R8). -/
abbrev Byte := BitVec 8

/-- A register identifier is its fixed 3-bit code, 0 to 7 (R6 REG_CODE_BITS, R12). A code of 8 or more cannot be
written down (decision D18, log 27). It names an x86 register the block encodes; the block stores none. -/
abbrev Reg := BitVec 3

/-- A raw address value, unsigned 32-bit (R6 ADDR_BITS). -/
abbrev Addr32 := BitVec 32

/-- An immediate value, unsigned 64-bit (R6 IMM_BITS). -/
abbrev Imm64 := BitVec 64

end Sys2Proof
end

