-- ==== Sys2Proof/Machine/Bytes.lean ====
section
/-! DEFINITION. `le_bytes`, `twos` (00_scope.md R8) and what the five write primitives of the sink append
(20_memory.md R31, R32). -/

namespace Sys2Proof.Machine

/-- R8 `le_bytes(n, v)`: the n bytes of v, least significant first. -/
def leBytes : Nat → Nat → List Byte
  | 0, _ => []
  | n + 1, v => BitVec.ofNat 8 v :: leBytes n (v / 256)

/-- R8 `twos(n, s)`: `s mod 2^(8n)`. -/
def twos (n : Nat) (s : Int) : Nat := (s % (2 ^ (8 * n) : Int)).toNat

/-- R32 `W_u8`. -/
def wU8 (v : BitVec 8) : List Byte := leBytes 1 v.toNat

/-- R32 `W_i8`, two's complement. -/
def wI8 (d : BitVec 8) : List Byte := leBytes 1 (twos 1 d.toInt)

/-- R32 `W_u16`. -/
def wU16 (v : BitVec 16) : List Byte := leBytes 2 v.toNat

/-- R32 `W_u32`. -/
def wU32 (v : BitVec 32) : List Byte := leBytes 4 v.toNat

/-- R32 `W_i32`. PRESUMED (log 26): two's complement at 32 bits, from general knowledge (decision D20). -/
def wI32 (d : BitVec 32) : List Byte := leBytes 4 (twos 4 d.toInt)

end Sys2Proof.Machine
end

