-- ==== Sys2Proof/Config.lean ====
section
/-! DEFINITION. The parameters the spec leaves to the model (00_scope.md R7): the mnemonic type, the addressing-method
and operand-size tags beyond the named ones, and the launch's sink contents. -/

namespace Sys2Proof

/-- MNEMONIC (R7, decision D5): opaque names of which only equality is ever used. DESIGN CHOICE (log 7): a name is a
numbered tag, so that there are as many as any metadata table can list and equality is decidable. -/
structure Mnemonic where
  tag : Nat
  deriving DecidableEq, Repr

/-- The one mnemonic the source names, "ADD" (R56). Its tag is this model's (log 7). -/
def Mnemonic.add : Mnemonic := ⟨0⟩

/-- METHOD_OTHER (R7, decision D9): the addressing-method tags the source does not name. -/
structure MethodTag where
  tag : Nat
  deriving DecidableEq, Repr

/-- SIZE_OTHER (R7, decision D10): the operand-size tags beyond Byte, Word and Dword. -/
structure SizeTag where
  tag : Nat
  deriving DecidableEq, Repr

/-- S0 (R7, R25): what the launch puts into the sink. DESIGN CHOICE (log 4, unsafe): the machine right after reset is
launched with the empty sink; `State.launch` takes any other. -/
def Config.initialSink : List Byte := []

end Sys2Proof
end

