-- ==== Sys2Proof/Syntax.lean ====
section
/-! DEFINITION. The request data types (10_state.md R12 to R24) and `Instr`, one constructor per row of
spec/opcode_table.json. -/

namespace Sys2Proof

/-- R14: the tag of one operand slot of one mnemonic variant. -/
inductive AddressingMethod where
  | none
  | register
  | registerOrMemoryAddress
  | memoryAddress
  | directAddress
  | immediateData
  | relativeOffset
  | other (t : MethodTag)
  deriving DecidableEq, Repr

/-- R15: the declared size of one operand slot. -/
inductive OperandSize where
  | byte
  | word
  | dword
  | other (t : SizeTag)
  deriving DecidableEq, Repr

/-- R16: the four modifiers. -/
inductive RegOrMemModifier where
  | registerPointer
  | registerDispShortPointer
  | registerDispLongPointer
  | registerOnly
  deriving DecidableEq, Repr

/-- R17: a direct value, or a dereferenced one. -/
inductive OperandType where
  | normal
  | dereferenced
  deriving DecidableEq, Repr

/-- R18: a register, a raw unsigned 32-bit address or an unsigned 64-bit immediate, exactly one of them. -/
inductive Value where
  | reg (r : Reg)
  | addr (a : Addr32)
  | imm (n : Imm64)
  deriving DecidableEq, Repr

/-- R19: an optional displacement. The bit vectors hold i8 and i32 in two's complement (R8). -/
inductive Correction where
  | noCorr
  | short (d : BitVec 8)
  | long (d : BitVec 32)
  deriving DecidableEq, Repr

/-- R20. -/
structure Operand where
  value : Value
  corr : Correction
  otype : OperandType
  deriving DecidableEq, Repr

/-- R21: one opcode's metadata, parallel lists indexed by mnemonic variant. -/
structure OpCode where
  bytes : List Byte
  mnemonics : List Mnemonic
  methods1 : List AddressingMethod
  sizes1 : List OperandSize
  methods2 : List AddressingMethod
  sizes2 : List OperandSize
  hasRegisterToken : Bool
  deriving DecidableEq, Repr

/-- R23: what one call of `encode` is given. The spec's record `Instruction`; it is called a request here, as in R10,
so that it is not taken for a row of the opcode table. -/
structure Request where
  opcode : OpCode
  mnemonic : Mnemonic
  op1 : Option Operand
  op2 : Option Operand
  deriving DecidableEq, Repr

/-- One constructor per row of spec/opcode_table.json. `encode` and `add` are whole requests; every other row is one
emission within a request. -/
inductive Instr where
  /-- ENCODE, R82: the one operation of the block. -/
  | encode (req : Request)
  /-- OPC, R83: `oooooooo`. -/
  | opc (b : Byte)
  /-- TOK_REGONLY, R51, R64: `11rrrbbb`. -/
  | tokRegonly (g b : Reg)
  /-- TOK_REGPTR, R51, R64: `00rrrbbb`. -/
  | tokRegptr (g b : Reg)
  /-- TOK_DISP8, R51, R64: `01rrrbbb`. -/
  | tokDisp8 (g b : Reg)
  /-- TOK_DISP32, R51, R64: `10rrrbbb`. -/
  | tokDisp32 (g b : Reg)
  /-- TOK_ABS, R51, R64: `00rrr101`. -/
  | tokAbs (g : Reg)
  /-- TOK_REG, R62: `00rrr000`, a Register slot's contribution. -/
  | tokReg (g : Reg)
  /-- TOK_NONE, R68(a): `00000000`. -/
  | tokNone
  /-- IMM8, R72. -/
  | imm8 (v : BitVec 8)
  /-- IMM16, R72. -/
  | imm16 (v : BitVec 16)
  /-- IMM32, R72. -/
  | imm32 (v : BitVec 32)
  /-- ADDR32, R74. -/
  | addr32 (a : Addr32)
  /-- DISP8, R77. -/
  | disp8 (d : BitVec 8)
  /-- DISP32, R77. -/
  | disp32 (d : BitVec 32)
  /-- NOVALUE_REL, R75. -/
  | novalueRel
  /-- NOVALUE, R76. -/
  | novalue
  /-- ADD, R56, R82: a request for opcode 0x01, variant ADD, with these two operands. -/
  | add (op1 op2 : Option Operand)
  deriving DecidableEq, Repr

end Sys2Proof
end

