-- ==== Sys2Proof/Machine/Metadata.lean ====
section
/-! DEFINITION. Reading a request: the variant its mnemonic selects (42_encoder.md R84), the slots of that variant
(10_state.md R21), its effective operands (R24), a size's width (R15) and a value's number (41_operand_writer.md R72).
Nothing here reads or writes State. -/

namespace Sys2Proof

/-- R84 `firstIndex(L, x)`: the least j with L[j] = x. -/
def firstIndex : List Mnemonic → Mnemonic → Option Nat
  | [], _ => none
  | y :: ys, x => if y = x then some 0 else (firstIndex ys x).map (· + 1)

/-- The four slot entries of one mnemonic variant (R21). -/
structure Variant where
  method1 : AddressingMethod
  size1 : OperandSize
  method2 : AddressingMethod
  size2 : OperandSize
  deriving DecidableEq, Repr

/-- R21: entry i of the four parallel lists; none past an end, which admission rules out (R22). -/
def OpCode.variantAt (o : OpCode) (i : Nat) : Option Variant :=
  match o.methods1[i]?, o.sizes1[i]?, o.methods2[i]?, o.sizes2[i]? with
  | some m1, some z1, some m2, some z2 => some ⟨m1, z1, m2, z2⟩
  | _, _, _, _ => none

/-- R84 with R21: the slots the request's mnemonic selects, none when the opcode does not declare it. -/
def Request.variant (r : Request) : Option Variant :=
  (firstIndex r.opcode.mnemonics r.mnemonic).bind r.opcode.variantAt

/-- R24. -/
def Request.eff1 (r : Request) : Option Operand := r.op1

/-- R24: operand 2 counts as absent whenever operand 1 is absent. For the token this is the spec's own choice
(decision D6, log 21). -/
def Request.eff2 (r : Request) : Option Operand :=
  match r.op1 with
  | none => none
  | some _ => r.op2

/-- R15: the width in bytes of a named size. -/
def OperandSize.width : OperandSize → Option Nat
  | .byte => some 1
  | .word => some 2
  | .dword => some 4
  | .other _ => none

/-- R72: the number in `Addr(a)` or `Imm(k)`; a register has none. -/
def Value.number : Value → Option Nat
  | .reg _ => none
  | .addr a => some a.toNat
  | .imm k => some k.toNat

/-- R67: a slot reaches the token resolver iff its operand is present and its method is `Register` or RMA. The
condition is the spec's own choice (decision D7, log 22). -/
def contributes (m : AddressingMethod) (op : Option Operand) : Bool :=
  op.isSome && (m == .register || m == .registerOrMemoryAddress)

/-- A `Register` slot of the variant contributes to the token. -/
def Variant.registerContributes (v : Variant) (e1 e2 : Option Operand) : Bool :=
  (v.method1 == .register && e1.isSome) || (v.method2 == .register && e2.isSome)

/-- An RMA slot of the variant contributes to the token. -/
def Variant.rmaContributes (v : Variant) (e1 e2 : Option Operand) : Bool :=
  (v.method1 == .registerOrMemoryAddress && e1.isSome) || (v.method2 == .registerOrMemoryAddress && e2.isSome)

/-- The opcode record of the source's one concrete opcode (R56, W1): 0x01, the one variant ADD, slot 1 RMA/Dword,
slot 2 Register/Dword, with a token. -/
def addOpCode : OpCode where
  bytes := [0x01#8]
  mnemonics := [Mnemonic.add]
  methods1 := [.registerOrMemoryAddress]
  sizes1 := [.dword]
  methods2 := [.register]
  sizes2 := [.dword]
  hasRegisterToken := true

/-- The request the ADD row stands for, with these operands. -/
def addRequest (op1 op2 : Option Operand) : Request := ⟨addOpCode, Mnemonic.add, op1, op2⟩

end Sys2Proof
end

