-- ==== Sys2Proof/WellFormed.lean ====
section
/-! DEFINITION. Well-formed instructions: what the caller must establish (70_reset_and_hazards.md R107, 10_state.md R22,
R23) and the operand and slot pairings the block encodes without a failure (60_exceptions.md R91 to R95). A term that
fails a check is still run by the machine, which refuses it or fails it as the spec says. -/

namespace Sys2Proof

/-- R22(a): exactly one opcode byte. -/
def OpCode.singleByte (o : OpCode) : Bool := o.bytes.length == 1

/-- R22(b): the five lists are parallel. -/
def OpCode.parallel (o : OpCode) : Bool :=
  o.methods1.length == o.mnemonics.length && o.methods2.length == o.mnemonics.length &&
    o.sizes1.length == o.mnemonics.length && o.sizes2.length == o.mnemonics.length

/-- R22. -/
def OpCode.wf (o : OpCode) : Bool := o.singleByte && o.parallel

/-- R23, R107: the mnemonic is one the opcode declares. -/
def Request.declared (r : Request) : Bool := r.opcode.mnemonics.contains r.mnemonic

/-- R23: "the second is meaningful only if the first is present". -/
def Request.op2NeedsOp1 (r : Request) : Bool := r.op1.isSome || r.op2.isNone

/-- The pairings of slot and operand that raise nothing, from the causes of R93 to R95: a numeric slot has a named
size and a number that fits; a `Register` slot that goes through the token holds a register; an RMA slot holds no
immediate in the token, and without a token none of 2^32 or more. -/
def slotOk (hasToken : Bool) (m : AddressingMethod) (z : OperandSize) (op : Operand) : Bool :=
  match m with
  | .memoryAddress | .directAddress | .immediateData =>
    match z.width, op.value.number with
    | some w, some n => decide (n < 2 ^ (8 * w))
    | _, _ => false
  | .registerOrMemoryAddress =>
    match op.value with
    | .reg _ | .addr _ => true
    | .imm k => !hasToken && decide (k.toNat < 2 ^ 32)
  | .register =>
    match op.value with
    | .reg _ => true
    | .addr _ | .imm _ => !hasToken
  | .none | .relativeOffset | .other _ => true

/-- Slot 1 of the selected variant takes operand 1. -/
def Request.slot1Ok (r : Request) : Bool :=
  match r.variant, r.eff1 with
  | some v, some op => slotOk r.opcode.hasRegisterToken v.method1 v.size1 op
  | _, _ => true

/-- Slot 2 of the selected variant takes operand 2. -/
def Request.slot2Ok (r : Request) : Bool :=
  match r.variant, r.eff2 with
  | some v, some op => slotOk r.opcode.hasRegisterToken v.method2 v.size2 op
  | _, _ => true

/-- A request that §7 of the source calls well-formed and correctly paired. -/
def Request.wf (r : Request) : Bool :=
  r.opcode.wf && r.declared && r.op2NeedsOp1 && r.slot1Ok && r.slot2Ok

/-- The two rows that are requests carry the request's checks; every field of an emission row holds any value of its
width (R49, R53, R54). -/
def Instr.wf : Instr → Bool
  | .encode r => r.wf
  | .add o1 o2 => (addRequest o1 o2).wf
  | .opc _ | .tokRegonly _ _ | .tokRegptr _ _ | .tokDisp8 _ _ | .tokDisp32 _ _ | .tokAbs _ | .tokReg _ | .tokNone
  | .imm8 _ | .imm16 _ | .imm32 _ | .addr32 _ | .disp8 _ | .disp32 _ | .novalueRel | .novalue => true

/-- No two slots fill one token field (R69), so that the token's fields are the operands' codes. -/
def Request.collisionFree (r : Request) : Bool :=
  match r.variant, r.eff1, r.eff2 with
  | some v, some _, some _ =>
    !(v.method1 == v.method2 && (v.method1 == .register || v.method1 == .registerOrMemoryAddress))
  | _, _, _ => true

/-- `collisionFree` of an instruction: of the request it is, true of an emission row. -/
def Instr.collisionFree : Instr → Bool
  | .encode r => r.collisionFree
  | .add o1 o2 => (addRequest o1 o2).collisionFree
  | .opc _ | .tokRegonly _ _ | .tokRegptr _ _ | .tokDisp8 _ _ | .tokDisp32 _ _ | .tokAbs _ | .tokReg _ | .tokNone
  | .imm8 _ | .imm16 _ | .imm32 _ | .addr32 _ | .disp8 _ | .disp32 _ | .novalueRel | .novalue => true

end Sys2Proof
end

