-- ==== Sys2Proof/Machine/State.lean ====
section
/-! DEFINITION. The state of the block (10_state.md R11, R25 to R30), plain data, and the reasons a step can stop. -/

namespace Sys2Proof.Machine

/-- R91: the four failure kinds, each a defined outcome of a request (decision D19), not a stop of the machine. -/
inductive Failure where
  | unsupportedMnemonic
  | unsupportedAddressing
  | invalidOperand
  | unsupportedSize
  deriving DecidableEq, Repr

/-- R99: why the block gives a request no meaning. It is recorded, and the run goes on (95_test_vectors.md P4). -/
inductive RefusalReason where
  | multiByteOpcode
  | malformedMetadata
  | sharedSink
  deriving DecidableEq, Repr

/-- R27: the result of a request. -/
inductive RequestResult where
  | ok
  | fault (k : Failure)
  | refused (why : RefusalReason)
  deriving DecidableEq, Repr

/-- R28, R82: the phases of a request. -/
inductive Phase where
  | opc
  | lookup
  | token
  | op1
  | op2
  | done
  deriving DecidableEq, Repr

/-- R28: the state that exists only while a request is in progress. `request` is the sample taken at its start (R44).
`valueDone` is the model's own (log 8): the value bytes of the operand in hand are written, its correction is next. -/
structure Transient where
  request : Request
  phase : Phase
  index : Option Nat
  tok : Option Byte
  valueDone : Bool
  deriving DecidableEq, Repr

/-- A request the caller has yet to issue (the host interface, logs 1 to 3). `phased`: the block's progress through it
is shown one phase a step, else it is one transaction, one step. `during`: the caller does not wait for the request in
progress to return but issues this one when that one is in the phase named (R43, R108). -/
structure Arrival where
  request : Request
  phased : Bool
  during : Option Phase
  deriving DecidableEq, Repr

/-- R11: the sink, the transient state, the last result, and the run-level refusal mark of R99; beside them the
caller's requests still to come, which are the model's own (log 2). The append position is derived (R26). -/
structure State where
  sink : List Byte
  inFlight : Option Transient
  result : Option RequestResult
  refusalMark : Bool
  inbox : List Arrival
  deriving DecidableEq, Repr

/-- Why the machine stops. -/
inductive Fault where
  /-- Raised by the sequencer on a transient state that no request leads to: a phase past LOOKUP with no variant at its
  index, or an opcode that admission refuses (R81). Safe: the model stops, and `State.Good` rules it out (log 14). -/
  | badTransient
  deriving DecidableEq, Repr

/-- Why the machine gives an instruction no meaning. -/
inductive Refusal where
  /-- Raised by an arm of `exec` whose instruction has no meaning yet; no arm does. Safe. -/
  | notModelled (mnemonic : String)
  deriving DecidableEq, Repr

/-- R30, R105: the block after reset, launched with the sink contents S0: idle, no result pending, the mark clear. -/
def State.launch (s0 : List Byte) : State where
  sink := s0
  inFlight := none
  result := none
  refusalMark := false
  inbox := []

/-- R30 with the S0 of Config.lean (log 4). -/
def State.reset : State := State.launch Config.initialSink

end Sys2Proof.Machine
end

