-- ==== Sys2Proof/Machine/Operands.lean ====
section
/-! DEFINITION. The resolver (40_token_resolver.md R61 to R70) and the operand writer (41_operand_writer.md R71 to
R79) as pure functions of a request: a byte, the bytes to append, or the failure raised. -/

namespace Sys2Proof.Machine

/-! ### The resolver -/

/-- R61. -/
def modBits (m : RegOrMemModifier) : Byte :=
  match m with
  | .registerPointer => 0x00#8
  | .registerDispShortPointer => 0x40#8
  | .registerDispLongPointer => 0x80#8
  | .registerOnly => 0xC0#8

/-- `code(r) & 7` as a number of the token (R12: the mask leaves it unchanged). -/
def regCode (r : Reg) : Byte := r.zeroExtend 8 &&& 7#8

/-- R63. -/
def determineModifier (op : Operand) : Except Failure RegOrMemModifier :=
  match op.value, op.corr, op.otype with
  | .reg _, .noCorr, .normal => .ok .registerOnly
  | .reg _, .noCorr, .dereferenced => .ok .registerPointer
  | .reg _, .short _, _ => .ok .registerDispShortPointer
  | .reg _, .long _, _ => .ok .registerDispLongPointer
  | .addr _, _, _ => .ok .registerPointer
  | .imm _, _, _ => .error .invalidOperand

/-- R62. The failure kind follows 90_conflicts.md C6. -/
def tokenPartRegister (op : Operand) : Except Failure Byte :=
  match op.value with
  | .reg r => .ok (regCode r <<< 3)
  | .addr _ => .error .unsupportedAddressing
  | .imm _ => .error .unsupportedAddressing

/-- R64. An address gives the fallback 0x05 whatever its modifier (90_conflicts.md C2). -/
def tokenPartRma (op : Operand) : Except Failure Byte :=
  match determineModifier op with
  | .error k => .error k
  | .ok m =>
    match op.value with
    | .reg r => .ok (modBits m ||| regCode r)
    | .addr _ => .ok 0x05#8
    | .imm _ => .error .invalidOperand

/-- R62, R64, R65: the contribution of one slot. The size is never read (R66). -/
def tokenPart (m : AddressingMethod) (_z : OperandSize) (op : Operand) : Except Failure Byte :=
  match m with
  | .register => tokenPartRegister op
  | .registerOrMemoryAddress => tokenPartRma op
  | .none | .memoryAddress | .directAddress | .immediateData | .relativeOffset | .other _ =>
    .error .unsupportedAddressing

/-- R68: one slot's line of `computeToken`; a slot that does not contribute leaves the token as it is. -/
def slotPart (m : AddressingMethod) (z : OperandSize) (op : Option Operand) : Except Failure Byte :=
  match op with
  | none => .ok 0x00#8
  | some o => if contributes m op then tokenPart m z o else .ok 0x00#8

/-- R68: slot 1 first, and its failure is the one reported (decision D8, log 24). Collisions are ORed (R69). -/
def computeToken (v : Variant) (e1 e2 : Option Operand) : Except Failure Byte :=
  match slotPart v.method1 v.size1 e1 with
  | .error k => .error k
  | .ok a =>
    match slotPart v.method2 v.size2 e2 with
    | .error k => .error k
    | .ok b => .ok (0x00#8 ||| a ||| b)

/-! ### The operand writer -/

/-- A number that passed R73's checks, at the width its slot writes. -/
inductive SizedNumber where
  | u8 (v : BitVec 8)
  | u16 (v : BitVec 16)
  | u32 (v : BitVec 32)
  deriving DecidableEq, Repr

/-- R72, R73: the size tag, then the value variant, then the range (decisions D16, D13, D12; logs 20, 24). -/
def fitNumber (z : OperandSize) (v : Value) : Except Failure SizedNumber :=
  match z.width with
  | none => .error .unsupportedSize
  | some w =>
    match v.number with
    | none => .error .invalidOperand
    | some n =>
      if n ≥ 2 ^ (8 * w) then .error .invalidOperand
      else match w with
        | 1 => .ok (.u8 (BitVec.ofNat 8 n))
        | 2 => .ok (.u16 (BitVec.ofNat 16 n))
        | _ => .ok (.u32 (BitVec.ofNat 32 n))

/-- R72: the write after the checks. -/
def SizedNumber.bytes : SizedNumber → List Byte
  | .u8 v => wU8 v
  | .u16 v => wU16 v
  | .u32 v => wU32 v

/-- R72. -/
def writeNumber (z : OperandSize) (v : Value) : Except Failure (List Byte) :=
  match fitNumber z v with
  | .error k => .error k
  | .ok n => .ok n.bytes

/-- R74: the address an RMA value is written as; none for a register. An immediate is one when it fits (decision
D14, log 20). -/
def rmaAddress (v : Value) : Except Failure (Option Addr32) :=
  match v with
  | .reg _ => .ok none
  | .addr a => .ok (some a)
  | .imm k => if k.toNat ≥ 2 ^ 32 then .error .invalidOperand else .ok (some (k.truncate 32))

/-- R74. -/
def writeRmaValue (v : Value) : Except Failure (List Byte) :=
  match rmaAddress v with
  | .error k => .error k
  | .ok none => .ok []
  | .ok (some a) => .ok (wU32 a)

/-- R71: the value bytes of one slot. -/
def writeValue (m : AddressingMethod) (z : OperandSize) (v : Value) : Except Failure (List Byte) :=
  match m with
  | .memoryAddress | .directAddress | .immediateData => writeNumber z v
  | .registerOrMemoryAddress => writeRmaValue v
  | .relativeOffset => .ok []
  | .none | .register | .other _ => .ok []

/-- R77; it raises nothing. It is called for every method (R78, decision D15, log 23). -/
def writeCorrection (c : Correction) : List Byte :=
  match c with
  | .noCorr => []
  | .short d => wI8 d
  | .long d => wI32 d

/-- R71: the value bytes, then the correction's. -/
def writeOperand (m : AddressingMethod) (z : OperandSize) (op : Operand) : Except Failure (List Byte) :=
  match writeValue m z op.value with
  | .error k => .error k
  | .ok bs => .ok (bs ++ writeCorrection op.corr)

/-- R86, R87: `if eff ≠ none then writeOperand(...)`. -/
def writeSlot (m : AddressingMethod) (z : OperandSize) (op : Option Operand) : Except Failure (List Byte) :=
  match op with
  | none => .ok []
  | some o => writeOperand m z o

/-- R85: the token byte, if the opcode has one. -/
def writeToken (hasToken : Bool) (v : Variant) (e1 e2 : Option Operand) : Except Failure (List Byte) :=
  if hasToken then
    match computeToken v e1 e2 with
    | .error k => .error k
    | .ok tok => .ok (wU8 tok)
  else .ok []

/-- R83: `W_u8(opc.bytes[0])`; admission leaves exactly one byte. -/
def writeOpcode (o : OpCode) : List Byte :=
  match o.bytes with
  | [] => []
  | b :: _ => wU8 b

/-- R82: the phases of an admitted request: the bytes it appends and the failure that ended it, if one did. A raise
keeps the bytes of the earlier phases (R97). -/
def runPhases (r : Request) : List Byte × Option Failure :=
  match r.variant with
  | none => (writeOpcode r.opcode, some .unsupportedMnemonic)
  | some v =>
    match writeToken r.opcode.hasRegisterToken v r.eff1 r.eff2 with
    | .error k => (writeOpcode r.opcode, some k)
    | .ok tok =>
      match writeSlot v.method1 v.size1 r.eff1 with
      | .error k => (writeOpcode r.opcode ++ tok, some k)
      | .ok b1 =>
        match writeSlot v.method2 v.size2 r.eff2 with
        | .error k => (writeOpcode r.opcode ++ tok ++ b1, some k)
        | .ok b2 => (writeOpcode r.opcode ++ tok ++ b1 ++ b2, none)

end Sys2Proof.Machine
end

