-- ==== Sys2Proof/Machine/Ops.lean ====
section
/-! DEFINITION. The named operations over State: appending to the sink, moving the request in progress through its
phases, and the three ways a request ends. -/

namespace Sys2Proof.Machine

/-- R26: the append position is the number of bytes in the sink. -/
def State.pos (s : State) : Nat := s.sink.length

/-- The byte a later reader of the sink finds at a position. An observer for statements only: the block never reads
the sink (R25, R38). -/
def State.byteAt (s : State) (p : Nat) : Option Byte := s.sink[p]?

/-- The sink as (position, byte) cells, a view for a later reader: an unlisted position holds no byte (log 6). -/
def sinkCells (bs : List Byte) : List Host.Cell := bs.zipIdx.map fun x => (x.2, x.1)

/-- R9 `MemWrite` at `pos`: the only store there is. It is whole and never fails (decision D2, log 5), has no
alignment (R35) and checks no range (R39). -/
def State.append (s : State) (bs : List Byte) : State := { s with sink := s.sink ++ bs }

/-- A change of the request in progress; an idle block has none to change. -/
def State.mapFlight (s : State) (f : Transient → Transient) : State := { s with inFlight := s.inFlight.map f }

/-- R82: the phases in their order. -/
def Phase.next : Phase → Phase
  | .opc => .lookup
  | .lookup => .token
  | .token => .op1
  | .op1 => .op2
  | .op2 => .done
  | .done => .done

/-- R82: the phase is over. -/
def State.advance (s : State) : State :=
  s.mapFlight fun t => { t with phase := t.phase.next, valueDone := false }

/-- R84: LOOKUP found the index. -/
def State.setIndex (s : State) (i : Nat) : State := s.mapFlight fun t => { t with index := some i }

/-- The token contributions ORed so far, `tok <- 0x00` before the first (R68). -/
def State.tokSoFar (s : State) : Byte := (s.inFlight.bind Transient.tok).getD 0#8

/-- R68: `tok <- tok | part`, with the token not complete yet. -/
def State.orToken (s : State) (part : Byte) : State :=
  s.mapFlight fun t => { t with tok := some (s.tokSoFar ||| part) }

/-- R68, R85: `tok <- tok | part` completes the token; `W_u8(tok)`, and the phase is over. -/
def State.putToken (s : State) (part : Byte) : State :=
  ((s.orToken part).append (wU8 (s.tokSoFar ||| part))).advance

/-- The value bytes of the operand in hand are written; its correction is next (R46). -/
def State.valueWritten (s : State) : State := s.mapFlight fun t => { t with valueDone := true }

/-- R44, R81: an admitted request starts: it is sampled, and OPC is next. -/
def State.begin (s : State) (r : Request) : State :=
  { s with inFlight := some ⟨r, .opc, none, none, false⟩ }

/-- R88 DONE: the result is Ok, the transient state is discarded. -/
def State.complete (s : State) : State := { s with inFlight := none, result := some .ok }

/-- R96, the block's counterpart of taking an exception: the request ends at once with result Fault(k). Nothing is
saved, no mode, mask or vector exists, and the bytes already appended stay (R97). There is no return (R100). -/
def State.raise (s : State) (k : Failure) : State := { s with inFlight := none, result := some (.fault k) }

/-- R9, R99: the request has no meaning: nothing is appended, the result and the mark say so. A request in progress
goes on (95_test_vectors.md, shared sink). -/
def State.refuse (s : State) (why : RefusalReason) : State :=
  { s with result := some (.refused why), refusalMark := true }

/-- R81: why a request is not admitted, in the rule's order; `busy` when another is in progress on the sink. -/
def admission (busy : Bool) (r : Request) : Option RefusalReason :=
  if busy then some .sharedSink
  else if r.opcode.bytes.length ≠ 1 then some .multiByteOpcode
  else if r.opcode.methods1.length ≠ r.opcode.mnemonics.length ∨ r.opcode.methods2.length ≠ r.opcode.mnemonics.length ∨
      r.opcode.sizes1.length ≠ r.opcode.mnemonics.length ∨ r.opcode.sizes2.length ≠ r.opcode.mnemonics.length then
    some .malformedMetadata
  else none

end Sys2Proof.Machine
end

