-- ==== Sys2Proof/Machine/Emission.lean ====
section
/-! DEFINITION. The emissions within a request: OPC, the token rows, the value rows and the displacement rows. Each
does what its rule says wherever it is run; the sequencer runs it only in its phase (log 10). -/

namespace Sys2Proof.Machine

/-- OPC, R83: `W_u8(opc.bytes[0])`. -/
def execOpc (b : Byte) (s : State) : Host.Outcome State Fault Refusal := .next (s.append (wU8 b)).advance

/-! ### The token (R51, R64, R68, R85) -/

/-- The RMA contribution of R64 with the reg field's code (R51). -/
def rmaToken (m : RegOrMemModifier) (g b : Reg) : Byte := modBits m ||| regCode g <<< 3 ||| regCode b

/-- The request in progress has an RMA slot that contributes to the token (R67), so that a `Register` slot's part does
not complete it. -/
def rmaPending (s : State) : Bool :=
  match s.inFlight with
  | none => false
  | some t =>
    match t.request.variant with
    | none => false
    | some v => v.rmaContributes t.request.eff1 t.request.eff2

/-- TOK_REGONLY, R51: `0xC0 | g<<3 | code(r)`. -/
def execTokRegonly (g b : Reg) (s : State) : Host.Outcome State Fault Refusal :=
  .next (s.putToken (rmaToken .registerOnly g b))

/-- TOK_REGPTR, R51: `0x00 | g<<3 | code(r)`. -/
def execTokRegptr (g b : Reg) (s : State) : Host.Outcome State Fault Refusal :=
  .next (s.putToken (rmaToken .registerPointer g b))

/-- TOK_DISP8, R51: `0x40 | g<<3 | code(r)`. -/
def execTokDisp8 (g b : Reg) (s : State) : Host.Outcome State Fault Refusal :=
  .next (s.putToken (rmaToken .registerDispShortPointer g b))

/-- TOK_DISP32, R51: `0x80 | g<<3 | code(r)`. -/
def execTokDisp32 (g b : Reg) (s : State) : Host.Outcome State Fault Refusal :=
  .next (s.putToken (rmaToken .registerDispLongPointer g b))

/-- TOK_ABS, R51: `0x00 | g<<3 | 5`. -/
def execTokAbs (g : Reg) (s : State) : Host.Outcome State Fault Refusal :=
  .next (s.putToken (regCode g <<< 3 ||| 0x05#8))

/-- TOK_REG, R62, R68: the contribution `code << 3` is ORed into the token. With an RMA slot still to contribute the
token stays in the block; else it is complete and is written (log 9). -/
def execTokReg (g : Reg) (s : State) : Host.Outcome State Fault Refusal :=
  .next (if rmaPending s then s.orToken (regCode g <<< 3) else s.putToken (regCode g <<< 3))

/-- TOK_NONE, R68(a): no slot contributes, and 0x00 is written all the same. -/
def execTokNone (s : State) : Host.Outcome State Fault Refusal := .next (s.putToken 0x00#8)

/-! ### Values (R71 to R76) -/

/-- IMM8, R72: `W_u8(n)`. -/
def execImm8 (v : BitVec 8) (s : State) : Host.Outcome State Fault Refusal := .next (s.append (wU8 v)).valueWritten

/-- IMM16, R72: `W_u16(n)`. -/
def execImm16 (v : BitVec 16) (s : State) : Host.Outcome State Fault Refusal := .next (s.append (wU16 v)).valueWritten

/-- IMM32, R72: `W_u32(n)`. -/
def execImm32 (v : BitVec 32) (s : State) : Host.Outcome State Fault Refusal := .next (s.append (wU32 v)).valueWritten

/-- ADDR32, R74: `W_u32(a)`. -/
def execAddr32 (a : Addr32) (s : State) : Host.Outcome State Fault Refusal := .next (s.append (wU32 a)).valueWritten

/-- NOVALUE_REL, R75: no value bytes; the correction is still to come. -/
def execNovalueRel (s : State) : Host.Outcome State Fault Refusal := .next s.valueWritten

/-- NOVALUE, R74, R76: no value bytes; the correction is still to come. -/
def execNovalue (s : State) : Host.Outcome State Fault Refusal := .next s.valueWritten

/-! ### Corrections (R77, R78) -/

/-- DISP8, R77: `W_i8(d)`; the operand is done. -/
def execDisp8 (d : BitVec 8) (s : State) : Host.Outcome State Fault Refusal := .next (s.append (wI8 d)).advance

/-- DISP32, R77: `W_i32(d)`; the operand is done. -/
def execDisp32 (d : BitVec 32) (s : State) : Host.Outcome State Fault Refusal := .next (s.append (wI32 d)).advance

end Sys2Proof.Machine
end

