-- ==== Sys2Proof/Machine/Flags.lean ====
section
/-! DEFINITION. The block has no flags and no condition codes (10_state.md R27, decision D23): every rule's Flags line
says none. What stands in their place is the result of a request and its numeric code. -/

namespace Sys2Proof.Machine

/-- R91: the code of a failure kind (the numbers are the spec's own, decision D17). -/
def Failure.code : Failure → Nat
  | .unsupportedMnemonic => 1
  | .unsupportedAddressing => 2
  | .invalidOperand => 3
  | .unsupportedSize => 4

/-- R91: 0 is Ok; a refusal is no outcome of the block and has no code (R99). -/
def RequestResult.code : RequestResult → Option Nat
  | .ok => some 0
  | .fault k => some k.code
  | .refused _ => none

/-- The result of an admitted request from the failure that ended it (R27, R88, R96). -/
def RequestResult.ofFailure : Option Failure → RequestResult
  | none => .ok
  | some k => .fault k

end Sys2Proof.Machine
end

