-- ==== Sys2Proof/Machine/Requests.lean ====
section
/-! DEFINITION. The whole requests: ENCODE and ADD (42_encoder.md R80 to R89). -/

namespace Sys2Proof.Machine

/-- R80, R81, R82, R88: one request as one transaction. A request that admission turns away is refused and recorded
(R99); an admitted one appends the bytes of its phases and leaves its result, the block idle again. -/
def transact (r : Request) (s : State) : State :=
  match admission s.inFlight.isSome r with
  | some why => s.refuse why
  | none =>
    match runPhases r with
    | (bs, none) => (s.append bs).complete
    | (bs, some k) => (s.append bs).raise k

/-- ENCODE, R82. -/
def execEncode (r : Request) (s : State) : Host.Outcome State Fault Refusal := .next (transact r s)

/-- ADD, R82 with the metadata of R56: opcode 0x01, variant ADD, RMA/Dword and Register/Dword, with a token. -/
def execAdd (op1 op2 : Option Operand) (s : State) : Host.Outcome State Fault Refusal :=
  .next (transact (addRequest op1 op2) s)

end Sys2Proof.Machine
end

