-- ==== Sys2Proof/Machine/Dispatch.lean ====
section
/-! DEFINITION. One arm per row of spec/opcode_table.json. -/

namespace Sys2Proof.Machine

def exec (i : Instr) (s : State) : Host.Outcome State Fault Refusal :=
  match i with
  | .encode r => Sys2Proof.Machine.execEncode r s
  | .opc b => Sys2Proof.Machine.execOpc b s
  | .tokRegonly g b => Sys2Proof.Machine.execTokRegonly g b s
  | .tokRegptr g b => Sys2Proof.Machine.execTokRegptr g b s
  | .tokDisp8 g b => Sys2Proof.Machine.execTokDisp8 g b s
  | .tokDisp32 g b => Sys2Proof.Machine.execTokDisp32 g b s
  | .tokAbs g => Sys2Proof.Machine.execTokAbs g s
  | .tokReg g => Sys2Proof.Machine.execTokReg g s
  | .tokNone => Sys2Proof.Machine.execTokNone s
  | .imm8 v => Sys2Proof.Machine.execImm8 v s
  | .imm16 v => Sys2Proof.Machine.execImm16 v s
  | .imm32 v => Sys2Proof.Machine.execImm32 v s
  | .addr32 a => Sys2Proof.Machine.execAddr32 a s
  | .disp8 d => Sys2Proof.Machine.execDisp8 d s
  | .disp32 d => Sys2Proof.Machine.execDisp32 d s
  | .novalueRel => Sys2Proof.Machine.execNovalueRel s
  | .novalue => Sys2Proof.Machine.execNovalue s
  | .add op1 op2 => Sys2Proof.Machine.execAdd op1 op2 s

end Sys2Proof.Machine
end

