-- ==== Sys2Proof/Decode.lean ====
section
/-! DEFINITION. The decoder of the block's output forms, total on any bytes and rejecting by name, and after it the
encoder, both written from the bit patterns of 30_encoding.md (R46, R49 to R54) and spec/opcode_table.json.

The block itself decodes nothing (00_scope.md R5). "A decoder of the block's output cannot tell an encoding's length
from its bytes alone" (R59), and several rows share one bit pattern (R52), so the decoder is told which `Field` of the
layout of R46 it reads: what a reader who holds the metadata knows. `fieldOfBytes` guesses that for bytes that come
with nothing (log 11). -/

namespace Sys2Proof

/-- Which field of the layout of R46 some bytes are. For a whole request it is the request with every number that the
bytes hold erased: the metadata, the kinds of the operands, and the values that are encoded nowhere (R59). -/
inductive Field where
  | opcode
  /-- the token, an RMA operand that holds a register contributes -/
  | tokenRma
  /-- the token, an RMA operand that holds an address contributes -/
  | tokenAbs
  /-- the token, only `Register` slots contribute -/
  | tokenReg
  /-- the token, no slot contributes -/
  | tokenNone
  | imm8
  | imm16
  | imm32
  | addr32
  | disp8
  | disp32
  | novalueRel
  | novalue
  | request (template : Request)
  | add (template1 template2 : Option Operand)
  deriving DecidableEq, Repr

/-- Why bytes are not an encoding of their field. -/
inductive DecodeError where
  /-- more or fewer bytes than the field has -/
  | length
  /-- a fixed bit of the pattern, or a bit that the request's kinds fix, has the other value -/
  | fixedBits
  /-- the template's mnemonic is not declared by its opcode, so the layout is not known -/
  | undeclared
  /-- the template puts an operand into a slot that has no encoding for it -/
  | operandKind
  deriving DecidableEq, Repr

/-! ### Bit patterns -/

/-- R49: the token byte `mmrrrbbb`. -/
def tokenBits (mod : BitVec 2) (reg rm : Reg) : Byte := mod ++ reg ++ rm

/-- Token bits 7:6 (R49). -/
def modField (t : Byte) : BitVec 2 := t.extractLsb' 6 2

/-- Token bits 5:3 (R49). -/
def regField (t : Byte) : Reg := t.extractLsb' 3 3

/-- Token bits 2:0 (R49). -/
def rmField (t : Byte) : Reg := t.extractLsb' 0 3

/-- R53: `[v[7:0], v[15:8]]`. -/
def bytesLe16 (v : BitVec 16) : List Byte := [v.extractLsb' 0 8, v.extractLsb' 8 8]

/-- R53: the four bytes of v, bits 7:0 first. -/
def bytesLe32 (v : BitVec 32) : List Byte :=
  [v.extractLsb' 0 8, v.extractLsb' 8 8, v.extractLsb' 16 8, v.extractLsb' 24 8]

/-! ### Decoding -/

/-- A register operand's token form by its mod field (R50, R51). -/
def tokenFormOfMod (mod : BitVec 2) (g b : Reg) : Instr :=
  if mod = 3#2 then .tokRegonly g b
  else if mod = 1#2 then .tokDisp8 g b
  else if mod = 2#2 then .tokDisp32 g b
  else .tokRegptr g b

/-- A slot's operand with its numbers read: from the token where the slot fills a token field (R49), else from the
bytes, value then correction (R46, R53, R54). What is encoded nowhere is kept (R59). -/
def readValue (hasToken : Bool) (t : Byte) (m : AddressingMethod) (z : OperandSize) (v : Value) (bs : List Byte) :
    Except DecodeError (Value × List Byte) :=
  match m with
  | .memoryAddress | .directAddress | .immediateData =>
    match z, v, bs with
    | .byte, .addr _, b0 :: rest => .ok (.addr (b0.zeroExtend 32), rest)
    | .byte, .imm _, b0 :: rest => .ok (.imm (b0.zeroExtend 64), rest)
    | .word, .addr _, b0 :: b1 :: rest => .ok (.addr ((b1 ++ b0).zeroExtend 32), rest)
    | .word, .imm _, b0 :: b1 :: rest => .ok (.imm ((b1 ++ b0).zeroExtend 64), rest)
    | .dword, .addr _, b0 :: b1 :: b2 :: b3 :: rest => .ok (.addr (b3 ++ b2 ++ b1 ++ b0), rest)
    | .dword, .imm _, b0 :: b1 :: b2 :: b3 :: rest => .ok (.imm ((b3 ++ b2 ++ b1 ++ b0).zeroExtend 64), rest)
    | .other _, _, _ => .error .operandKind
    | _, .reg _, _ => .error .operandKind
    | _, _, _ => .error .length
  | .registerOrMemoryAddress =>
    match v, bs with
    | .reg r, _ => .ok (.reg (if hasToken then rmField t else r), bs)
    | .addr _, b0 :: b1 :: b2 :: b3 :: rest => .ok (.addr (b3 ++ b2 ++ b1 ++ b0), rest)
    | .imm _, b0 :: b1 :: b2 :: b3 :: rest => .ok (.imm ((b3 ++ b2 ++ b1 ++ b0).zeroExtend 64), rest)
    | _, _ => .error .length
  | .register =>
    match v with
    | .reg r => .ok (.reg (if hasToken then regField t else r), bs)
    | .addr _ | .imm _ => .ok (v, bs)
  | .none | .relativeOffset | .other _ => .ok (v, bs)

/-- The displacement after an operand's value (R54). -/
def readCorrection (c : Correction) (bs : List Byte) : Except DecodeError (Correction × List Byte) :=
  match c, bs with
  | .noCorr, _ => .ok (.noCorr, bs)
  | .short _, d :: rest => .ok (.short d, rest)
  | .long _, d0 :: d1 :: d2 :: d3 :: rest => .ok (.long (d3 ++ d2 ++ d1 ++ d0), rest)
  | _, _ => .error .length

/-- `V ++ C` of one slot (R46); an absent operand has no bytes. -/
def readSlot (hasToken : Bool) (t : Byte) (m : AddressingMethod) (z : OperandSize) (op : Option Operand)
    (bs : List Byte) : Except DecodeError (Option Operand × List Byte) :=
  match op with
  | none => .ok (none, bs)
  | some o =>
    match readValue hasToken t m z o.value bs with
    | .error e => .error e
    | .ok (v, bs1) =>
      match readCorrection o.corr bs1 with
      | .error e => .error e
      | .ok (c, bs2) => .ok (some ⟨v, c, o.otype⟩, bs2)

/-- The token byte, where the opcode has one (R46). -/
def readToken (hasToken : Bool) (bs : List Byte) : Except DecodeError (Byte × List Byte) :=
  match hasToken, bs with
  | false, _ => .ok (0#8, bs)
  | true, t :: rest => .ok (t, rest)
  | true, [] => .error .length

/-- The whole layout of R46 read against a template. It reads the numbers; `decode` then holds the result against the
encoder, so that no bit is passed over. -/
def readRequest (template : Request) (bs : List Byte) : Except DecodeError Request :=
  match bs with
  | [] => .error .length
  | o :: bs0 =>
    match template.variant with
    | none => .error .undeclared
    | some v =>
      match readToken template.opcode.hasRegisterToken bs0 with
      | .error e => .error e
      | .ok (t, bs1) =>
        match readSlot template.opcode.hasRegisterToken t v.method1 v.size1 template.op1 bs1 with
        | .error e => .error e
        | .ok (op1, bs2) =>
          match readSlot template.opcode.hasRegisterToken t v.method2 v.size2 template.op2 bs2 with
          | .error e => .error e
          | .ok (op2, rest) =>
            if rest = [] then .ok ⟨{ template.opcode with bytes := [o] }, template.mnemonic, op1, op2⟩
            else .error .length

/-! ### The encoder -/

/-- The mod field of an RMA operand (R50, R51); an address leaves it 00. -/
def Operand.modBitsField (op : Operand) : BitVec 2 :=
  match op.value, op.corr, op.otype with
  | .reg _, .noCorr, .normal => 3#2
  | .reg _, .noCorr, .dereferenced => 0#2
  | .reg _, .short _, _ => 1#2
  | .reg _, .long _, _ => 2#2
  | .addr _, _, _ => 0#2
  | .imm _, _, _ => 0#2

/-- What a slot puts into the mod field (R49): an RMA slot its modifier, any other slot nothing. -/
def slotMod (m : AddressingMethod) (op : Option Operand) : BitVec 2 :=
  match m, op with
  | .registerOrMemoryAddress, some o => o.modBitsField
  | _, _ => 0#2

/-- What a slot puts into the reg field (R49): a `Register` slot its code. -/
def slotReg (m : AddressingMethod) (op : Option Operand) : Reg :=
  match m, op with
  | .register, some ⟨.reg r, _, _⟩ => r
  | _, _ => 0#3

/-- What a slot puts into the rm field (R49): an RMA slot its register code, or 5 for an address. -/
def slotRm (m : AddressingMethod) (op : Option Operand) : Reg :=
  match m, op with
  | .registerOrMemoryAddress, some ⟨.reg r, _, _⟩ => r
  | .registerOrMemoryAddress, some ⟨.addr _, _, _⟩ => 5#3
  | _, _ => 0#3

/-- R46, R49: the token field by field, each the OR of what the slots put into it (R69). -/
def encodeToken (v : Variant) (e1 e2 : Option Operand) : Byte :=
  tokenBits (slotMod v.method1 e1 ||| slotMod v.method2 e2) (slotReg v.method1 e1 ||| slotReg v.method2 e2)
    (slotRm v.method1 e1 ||| slotRm v.method2 e2)

/-- R53: a number at its slot's size. -/
def encodeNumber (z : OperandSize) (n : Nat) : List Byte :=
  match z with
  | .byte => [BitVec.ofNat 8 n]
  | .word => bytesLe16 (BitVec.ofNat 16 n)
  | .dword => bytesLe32 (BitVec.ofNat 32 n)
  | .other _ => []

/-- R53: the value bytes of one slot. -/
def encodeValue (m : AddressingMethod) (z : OperandSize) (v : Value) : List Byte :=
  match m with
  | .memoryAddress | .directAddress | .immediateData => encodeNumber z (v.number.getD 0)
  | .registerOrMemoryAddress =>
    match v with
    | .reg _ => []
    | .addr a => bytesLe32 a
    | .imm k => bytesLe32 (k.truncate 32)
  | .none | .register | .relativeOffset | .other _ => []

/-- R54: the displacement bytes. -/
def encodeCorrection (c : Correction) : List Byte :=
  match c with
  | .noCorr => []
  | .short d => [d]
  | .long d => bytesLe32 d

/-- `V ++ C` of one slot (R46). -/
def encodeSlot (m : AddressingMethod) (z : OperandSize) (op : Option Operand) : List Byte :=
  match op with
  | none => []
  | some o => encodeValue m z o.value ++ encodeCorrection o.corr

/-- R46: `E = OPC ++ TOK ++ V1 ++ C1 ++ V2 ++ C2`, for a well-formed request. -/
def encodeRequest (r : Request) : List Byte :=
  match r.variant with
  | none => r.opcode.bytes
  | some v =>
    r.opcode.bytes ++ (if r.opcode.hasRegisterToken then [encodeToken v r.eff1 r.eff2] else []) ++
      encodeSlot v.method1 v.size1 r.eff1 ++ encodeSlot v.method2 v.size2 r.eff2

/-- The bytes of a well-formed instruction: the pattern of its row of spec/opcode_table.json. -/
def encode : Instr → List Byte
  | .encode r => encodeRequest r
  | .opc b => [b]
  | .tokRegonly g b => [tokenBits 3#2 g b]
  | .tokRegptr g b => [tokenBits 0#2 g b]
  | .tokDisp8 g b => [tokenBits 1#2 g b]
  | .tokDisp32 g b => [tokenBits 2#2 g b]
  | .tokAbs g => [tokenBits 0#2 g 5#3]
  | .tokReg g => [tokenBits 0#2 g 0#3]
  | .tokNone => [0#8]
  | .imm8 v => [v]
  | .imm16 v => bytesLe16 v
  | .imm32 v => bytesLe32 v
  | .addr32 a => bytesLe32 a
  | .disp8 d => [d]
  | .disp32 d => bytesLe32 d
  | .novalueRel => []
  | .novalue => []
  | .add o1 o2 => encodeRequest (addRequest o1 o2)

/-! ### The decoder's fields -/

/-- The field decoded: the instruction the bytes are, or why they are none. -/
def decode (f : Field) (bs : List Byte) : Except DecodeError Instr :=
  match f with
  | .opcode => match bs with
    | [b] => .ok (.opc b)
    | _ => .error .length
  | .tokenRma => match bs with
    | [t] => .ok (tokenFormOfMod (modField t) (regField t) (rmField t))
    | _ => .error .length
  | .tokenAbs => match bs with
    | [t] => if modField t = 0#2 ∧ rmField t = 5#3 then .ok (.tokAbs (regField t)) else .error .fixedBits
    | _ => .error .length
  | .tokenReg => match bs with
    | [t] => if modField t = 0#2 ∧ rmField t = 0#3 then .ok (.tokReg (regField t)) else .error .fixedBits
    | _ => .error .length
  | .tokenNone => match bs with
    | [t] => if t = 0#8 then .ok .tokNone else .error .fixedBits
    | _ => .error .length
  | .imm8 => match bs with
    | [b] => .ok (.imm8 b)
    | _ => .error .length
  | .imm16 => match bs with
    | [b0, b1] => .ok (.imm16 (b1 ++ b0))
    | _ => .error .length
  | .imm32 => match bs with
    | [b0, b1, b2, b3] => .ok (.imm32 (b3 ++ b2 ++ b1 ++ b0))
    | _ => .error .length
  | .addr32 => match bs with
    | [b0, b1, b2, b3] => .ok (.addr32 (b3 ++ b2 ++ b1 ++ b0))
    | _ => .error .length
  | .disp8 => match bs with
    | [b] => .ok (.disp8 b)
    | _ => .error .length
  | .disp32 => match bs with
    | [b0, b1, b2, b3] => .ok (.disp32 (b3 ++ b2 ++ b1 ++ b0))
    | _ => .error .length
  | .novalueRel => match bs with
    | [] => .ok .novalueRel
    | _ => .error .length
  | .novalue => match bs with
    | [] => .ok .novalue
    | _ => .error .length
  | .request template =>
    match readRequest template bs with
    | .error e => .error e
    | .ok r =>
      if !r.wf then .error .operandKind
      else if encodeRequest r = bs then .ok (.encode r) else .error .fixedBits
  | .add t1 t2 =>
    match readRequest (addRequest t1 t2) bs with
    | .error e => .error e
    | .ok r =>
      if !r.wf then .error .operandKind
      else if encodeRequest r = bs ∧ r.opcode = addOpCode then .ok (.add r.op1 r.op2) else .error .fixedBits

/-- A value with the number that its slot's bytes hold erased (R59). -/
def eraseValue (hasToken : Bool) (m : AddressingMethod) (v : Value) : Value :=
  match m with
  | .memoryAddress | .directAddress | .immediateData =>
    match v with
    | .reg r => .reg r
    | .addr _ => .addr 0#32
    | .imm _ => .imm 0#64
  | .registerOrMemoryAddress =>
    match v with
    | .reg r => .reg (if hasToken then 0#3 else r)
    | .addr _ => .addr 0#32
    | .imm _ => .imm 0#64
  | .register =>
    match v with
    | .reg r => .reg (if hasToken then 0#3 else r)
    | .addr _ | .imm _ => v
  | .none | .relativeOffset | .other _ => v

/-- A correction with its displacement erased. -/
def eraseCorrection (c : Correction) : Correction :=
  match c with
  | .noCorr => .noCorr
  | .short _ => .short 0#8
  | .long _ => .long 0#32

/-- An operand with the numbers that the bytes hold erased. -/
def eraseOperand (hasToken : Bool) (m : AddressingMethod) (op : Option Operand) : Option Operand :=
  op.map fun o => ⟨eraseValue hasToken m o.value, eraseCorrection o.corr, o.otype⟩

/-- A request with the numbers that its bytes hold erased: what the reader must know beforehand (R59). -/
def Request.template (r : Request) : Request :=
  match r.variant with
  | none => r
  | some v =>
    { r with
      opcode := { r.opcode with bytes := [0#8] }
      op1 := eraseOperand r.opcode.hasRegisterToken v.method1 r.op1
      op2 := eraseOperand r.opcode.hasRegisterToken v.method2 r.op2 }

/-- The field an instruction's bytes are. -/
def Instr.field : Instr → Field
  | .encode r => .request r.template
  | .opc _ => .opcode
  | .tokRegonly _ _ => .tokenRma
  | .tokRegptr _ _ => .tokenRma
  | .tokDisp8 _ _ => .tokenRma
  | .tokDisp32 _ _ => .tokenRma
  | .tokAbs _ => .tokenAbs
  | .tokReg _ => .tokenReg
  | .tokNone => .tokenNone
  | .imm8 _ => .imm8
  | .imm16 _ => .imm16
  | .imm32 _ => .imm32
  | .addr32 _ => .addr32
  | .disp8 _ => .disp8
  | .disp32 _ => .disp32
  | .novalueRel => .novalueRel
  | .novalue => .novalue
  | .add o1 o2 => .add (addRequest o1 o2).template.op1 (addRequest o1 o2).template.op2

/-- What a request's record says it is: the ADD row for the one concrete opcode, else ENCODE. The block is handed
records, not bytes (R60), so this is how an issued request selects its instruction. -/
def instrOf (r : Request) : Instr :=
  if r.opcode = addOpCode ∧ r.mnemonic = Mnemonic.add then .add r.op1 r.op2 else .encode r

/-! ### The opcode table's words, read with no metadata beside them -/

/-- An ADD operand 1 of the kind that a token's mod and rm fields show, its numbers zero (R51; mod 00 with rm 101 is
read as the address form, as the ADD row's own field note has it). -/
def addTemplate1 (t : Byte) : Operand :=
  if modField t = 3#2 then ⟨.reg 0#3, .noCorr, .normal⟩
  else if modField t = 1#2 then ⟨.reg 0#3, .short 0#8, .normal⟩
  else if modField t = 2#2 then ⟨.reg 0#3, .long 0#32, .normal⟩
  else if rmField t = 5#3 then ⟨.addr 0#32, .noCorr, .normal⟩
  else ⟨.reg 0#3, .noCorr, .dereferenced⟩

/-- DESIGN CHOICE (log 11): bytes that come with no metadata are read as the row with the most fixed bits that matches
them: ADD for a first byte 0x01, then for one byte TOK_NONE, TOK_REG, TOK_ABS and the four register tokens, for two
bytes IMM16, for four IMM32, for none NOVALUE. -/
def fieldOfBytes (bs : List Byte) : Field :=
  match bs with
  | [] => .novalue
  | b :: rest =>
    if b = 0x01#8 then .add (some (addTemplate1 (rest.headD 0#8))) (some ⟨.reg 0#3, .noCorr, .normal⟩)
    else match rest with
      | [] =>
        if b = 0#8 then .tokenNone
        else if modField b = 0#2 ∧ rmField b = 0#3 then .tokenReg
        else if modField b = 0#2 ∧ rmField b = 5#3 then .tokenAbs
        else .tokenRma
      | [_] => .imm16
      | _ => .imm32

/-- The first n bytes of a number, bits 7:0 first: how the sink holds a table word (R33). -/
def tableBytes : Nat → Nat → List Byte
  | 0, _ => []
  | n + 1, w => BitVec.ofNat 8 w :: tableBytes n (w / 256)

/-- Operand bytes that the table gives an ADD no bits for are zeros; every other row has all its bytes. -/
def padTableBytes (bs : List Byte) : List Byte :=
  match fieldOfBytes bs with
  | .add t1 t2 => bs ++ List.replicate ((encodeRequest (addRequest t1 t2)).length - bs.length) 0#8
  | _ => bs

/-- The instruction the decoder reads from a word of spec/opcode_table.json, nbits bits numbered with bit 0 the least
significant bit of the first byte. -/
def decodeTableWord (nbits w : Nat) : Option Instr :=
  match decode (fieldOfBytes (tableBytes (nbits / 8) w)) (padTableBytes (tableBytes (nbits / 8) w)) with
  | .ok i => some i
  | .error _ => none

end Sys2Proof
end

