-- ==== Sys2Proof/Machine/Fetch.lean ====
section
/-! DEFINITION. Placing one instruction where the next step runs it. A whole request is put at the head of the caller's
inbox; an emission row is the next action of a request in progress made for it (log 12). -/

namespace Sys2Proof.Machine

/-- A request with one variant of the spec's made-up mnemonic and these slots. -/
def madeUpRequest (b : Byte) (hasToken : Bool) (m1 : AddressingMethod) (z1 : OperandSize) (m2 : AddressingMethod)
    (op1 op2 : Option Operand) : Request where
  opcode := ⟨[b], [⟨1⟩], [m1], [z1], [m2], [.dword], hasToken⟩
  mnemonic := ⟨1⟩
  op1 := op1
  op2 := op2

/-- A request in progress whose next action is a token row with an RMA operand: the `Register` part is in. -/
def placedToken (g : Reg) (rma : Operand) : Transient :=
  ⟨madeUpRequest 0#8 true .registerOrMemoryAddress .dword .register (some rma) (some ⟨.reg g, .noCorr, .normal⟩),
    .token, some 0, some (g.zeroExtend 8 <<< 3), false⟩

/-- A request in progress whose next action is the value row of its operand 1. -/
def placedValue (m : AddressingMethod) (z : OperandSize) (v : Value) : Transient :=
  ⟨madeUpRequest 0#8 false m z .none (some ⟨v, .noCorr, .normal⟩) none, .op1, some 0, none, false⟩

/-- A request in progress whose next action is the displacement row of its operand 1. -/
def placedCorrection (c : Correction) : Transient :=
  ⟨madeUpRequest 0#8 false .none .dword .none (some ⟨.imm 0#64, c, .normal⟩) none, .op1, some 0, none, true⟩

/-- The request in progress that an emission row is the next action of; none for the rows that are requests. -/
def placedFlight : Instr → Option Transient
  | .encode _ => none
  | .add _ _ => none
  | .opc b => some ⟨madeUpRequest b false .none .dword .none none none, .opc, none, none, false⟩
  | .tokRegonly g b => some (placedToken g ⟨.reg b, .noCorr, .normal⟩)
  | .tokRegptr g b => some (placedToken g ⟨.reg b, .noCorr, .dereferenced⟩)
  | .tokDisp8 g b => some (placedToken g ⟨.reg b, .short 0#8, .normal⟩)
  | .tokDisp32 g b => some (placedToken g ⟨.reg b, .long 0#32, .normal⟩)
  | .tokAbs g => some (placedToken g ⟨.addr 0#32, .noCorr, .normal⟩)
  | .tokReg g =>
    some ⟨madeUpRequest 0#8 true .register .dword .none (some ⟨.reg g, .noCorr, .normal⟩) none, .token, some 0, none, false⟩
  | .tokNone => some ⟨madeUpRequest 0#8 true .none .dword .none none none, .token, some 0, none, false⟩
  | .imm8 v => some (placedValue .immediateData .byte (.imm (v.zeroExtend 64)))
  | .imm16 v => some (placedValue .immediateData .word (.imm (v.zeroExtend 64)))
  | .imm32 v => some (placedValue .immediateData .dword (.imm (v.zeroExtend 64)))
  | .addr32 a => some (placedValue .registerOrMemoryAddress .dword (.addr a))
  | .disp8 d => some (placedCorrection (.short d))
  | .disp32 d => some (placedCorrection (.long d))
  | .novalueRel => some (placedValue .relativeOffset .dword (.imm 0#64))
  | .novalue => some (placedValue .none .dword (.imm 0#64))

/-- The caller's request that a row is, for the rows that are requests. -/
def placedRequest : Instr → Option Request
  | .encode r => some r
  | .add o1 o2 => some (addRequest o1 o2)
  | .opc _ | .tokRegonly _ _ | .tokRegptr _ _ | .tokDisp8 _ _ | .tokDisp32 _ _ | .tokAbs _ | .tokReg _ | .tokNone
  | .imm8 _ | .imm16 _ | .imm32 _ | .addr32 _ | .disp8 _ | .disp32 _ | .novalueRel | .novalue => none

/-- s with the instruction placed. A request: the block idle, the request first in the inbox. An emission: its request
in progress, and no arrival that would be issued before it. -/
def State.place (s : State) (i : Instr) : State :=
  match placedRequest i with
  | some r => { s with inFlight := none, inbox := ⟨r, false, none⟩ :: s.inbox }
  | none => { s with inFlight := placedFlight i, inbox := [] }

end Sys2Proof.Machine
end

