-- ==== Sys2Proof/Machine/Sequencer.lean ====
section
/-! DEFINITION. What the block does next: wait, take the caller's next request, or go on with the request in progress
by the sequence of 42_encoder.md R82, one emission or one phase change at a time. -/

namespace Sys2Proof.Machine

/-- What a step does: run an instruction at a state, go to a state without one, or stop. -/
inductive Action where
  | run (i : Instr) (s : State)
  | goto (s : State)
  | stop (f : Fault)
  deriving DecidableEq, Repr

/-- A slot of this method either does not contribute to the token or its operand holds an address. -/
def rmaIsAddress (m : AddressingMethod) (op : Option Operand) : Bool :=
  match m, op with
  | .registerOrMemoryAddress, some ⟨.addr _, _, _⟩ => true
  | .registerOrMemoryAddress, some _ => false
  | _, _ => true

/-- The token row to run, for a request whose token is `tok` (R68): the `Register` slots' part first, then the row of
the RMA slot's form (R51) with the reg field's code, or TOK_NONE. Two slots of one kind give the row that their OR has
the bits of (R69). `soFar` is none until the `Register` part is in. -/
def tokenForm (v : Variant) (e1 e2 : Option Operand) (soFar : Option Byte) (tok : Byte) : Instr :=
  if v.registerContributes e1 e2 && soFar.isNone then .tokReg (regField tok)
  else if v.rmaContributes e1 e2 then
    if rmaIsAddress v.method1 e1 && rmaIsAddress v.method2 e2 then .tokAbs (regField tok)
    else tokenFormOfMod (modField tok) (regField tok) (rmField tok)
  else .tokNone

/-- R85: phase TOKEN. The token is computed whole before anything is written, so that a failure leaves no byte (R70). -/
def tokenAction (v : Variant) (t : Transient) (s : State) : Action :=
  if t.request.opcode.hasRegisterToken then
    match computeToken v t.request.eff1 t.request.eff2 with
    | .error k => .goto (s.raise k)
    | .ok tok => .run (tokenForm v t.request.eff1 t.request.eff2 t.tok tok) s
  else .goto s.advance

/-- The row of a checked number (R53). -/
def SizedNumber.form : SizedNumber → Instr
  | .u8 v => .imm8 v
  | .u16 v => .imm16 v
  | .u32 v => .imm32 v

/-- R71: the value row of one slot, or the failure it raises. -/
def valueForm (m : AddressingMethod) (z : OperandSize) (v : Value) : Except Failure Instr :=
  match m with
  | .memoryAddress | .directAddress | .immediateData =>
    match fitNumber z v with
    | .error k => .error k
    | .ok n => .ok n.form
  | .registerOrMemoryAddress =>
    match rmaAddress v with
    | .error k => .error k
    | .ok none => .ok .novalue
    | .ok (some a) => .ok (.addr32 a)
  | .relativeOffset => .ok .novalueRel
  | .none | .register | .other _ => .ok .novalue

/-- R86, R87: phases OP1 and OP2: the value row, then the correction's (R46); an absent operand ends the phase. -/
def operandAction (m : AddressingMethod) (z : OperandSize) (op : Option Operand) (t : Transient) (s : State) : Action :=
  match op with
  | none => .goto s.advance
  | some o =>
    if t.valueDone then
      match o.corr with
      | .noCorr => .goto s.advance
      | .short d => .run (.disp8 d) s
      | .long d => .run (.disp32 d) s
    else
      match valueForm m z o.value with
      | .error k => .goto (s.raise k)
      | .ok i => .run i s

/-- The variant at the index LOOKUP found (R28, R84). -/
def Transient.variant (t : Transient) : Option Variant := t.index.bind t.request.opcode.variantAt

/-- R82: the request in progress goes on. -/
def phaseAction (t : Transient) (s : State) : Action :=
  match t.phase with
  | .opc =>
    match t.request.opcode.bytes with
    | [b] => .run (.opc b) s
    | _ => .stop .badTransient
  | .lookup =>
    match firstIndex t.request.opcode.mnemonics t.request.mnemonic with
    | none => .goto (s.raise .unsupportedMnemonic)
    | some i => .goto (s.setIndex i).advance
  | .token =>
    match t.variant with
    | none => .stop .badTransient
    | some v => tokenAction v t s
  | .op1 =>
    match t.variant with
    | none => .stop .badTransient
    | some v => operandAction v.method1 v.size1 t.request.eff1 t s
  | .op2 =>
    match t.variant with
    | none => .stop .badTransient
    | some v => operandAction v.method2 v.size2 t.request.eff2 t s
  | .done => .goto s.complete

/-- An idle block takes the caller's next request: as one transaction, or, when the caller wants its phases shown and
admission lets it in, by starting it (log 1). -/
def issue (a : Arrival) (s : State) : Action :=
  if a.phased && (admission false a.request).isNone then .goto (s.begin a.request) else .run (instrOf a.request) s

/-- What the block does next. Idle with no request to take, it waits (R105). While a request is in progress, one that
the caller issues in its present phase is run, and so refused (R43); else the request in progress goes on. -/
def nextAction (s : State) : Action :=
  match s.inFlight, s.inbox with
  | none, [] => .goto s
  | none, a :: rest => issue a { s with inbox := rest }
  | some t, [] => phaseAction t s
  | some t, a :: rest =>
    if a.during = some t.phase then .run (instrOf a.request) { s with inbox := rest } else phaseAction t s

end Sys2Proof.Machine
end

