-- ==== Sys2Proof/Machine/Step.lean ====
section
/-! DEFINITION. One step of the block, and placing a table word where it runs next. -/

namespace Sys2Proof.Machine

/-- One step: what the sequencer says comes next. -/
def step (s : State) : Host.Outcome State Fault Refusal :=
  match nextAction s with
  | .run i s' => exec i s'
  | .goto s' => .next s'
  | .stop f => .fault f

/-- s with the instruction that the decoder reads from a table word placed where the next step runs it; s where the
decoder refuses the word. -/
def State.withFetchWord (s : State) (nbits w : Nat) : State :=
  match decodeTableWord nbits w with
  | some i => s.place i
  | none => s

end Sys2Proof.Machine
end

