-- ==== Sys2Proof/Safety.lean ====
section
/-! DEFINITION. What counts as a good state and a safe run, in the terms the statements use: the transient state means
what 10_state.md R28 says, an instruction's frame, and the lengths of 30_encoding.md R47. -/

namespace Sys2Proof.Machine

/-- The `Register` slots' part of a request's token: bits 5:3 of it (R49, R62). -/
def registerPart (tok : Byte) : Byte := tok &&& 0x38#8

/-- R28 within phase TOKEN: no contribution yet, or the `Register` part with an RMA slot still to contribute. -/
def Transient.tokenPending (t : Transient) (v : Variant) : Bool :=
  t.tok == none ||
    (t.request.opcode.hasRegisterToken && v.registerContributes t.request.eff1 t.request.eff2 &&
      v.rmaContributes t.request.eff1 t.request.eff2 &&
      match computeToken v t.request.eff1 t.request.eff2 with
      | .ok tok => t.tok == some (registerPart tok)
      | .error _ => false)

/-- R28 after phase TOKEN: `tok` is the token of R68 where the opcode has one, and holds no value where it has none. -/
def Transient.tokenSet (t : Transient) (v : Variant) : Bool :=
  if t.request.opcode.hasRegisterToken then
    match computeToken v t.request.eff1 t.request.eff2 with
    | .ok tok => t.tok == some tok
    | .error _ => false
  else t.tok == none

/-- R28, R81, R84: the request is one that admission lets in; the index holds no value up to LOOKUP and the first index
of the mnemonic after it; `tok` is as far as its phase says; an operand's value is written only in OP1 or OP2. -/
def Transient.Good (t : Transient) : Bool :=
  (admission false t.request).isNone &&
    match t.phase with
    | .opc | .lookup => t.index == none && t.tok == none && !t.valueDone
    | .token | .op1 | .op2 | .done =>
      t.index == firstIndex t.request.opcode.mnemonics t.request.mnemonic &&
        match t.variant with
        | none => false
        | some v =>
          match t.phase with
          | .token => t.tokenPending v && !t.valueDone
          | .op1 => t.tokenSet v && (!t.valueDone || t.request.eff1.isSome)
          | .op2 => t.tokenSet v && (!t.valueDone || t.request.eff2.isSome)
          | .opc | .lookup | .done => t.tokenSet v && !t.valueDone

/-- A state whose request in progress, if there is one, is good. -/
def State.Good (s : State) : Bool :=
  match s.inFlight with
  | none => true
  | some t => t.Good

/-- t is s but for bytes appended at the append position and the request in progress: every position outside the
appended bytes reads as before, and the last result, the refusal mark and the caller's requests are untouched. -/
def AppendsOnly (bs : List Byte) (s t : State) : Prop :=
  (∀ k, k < bs.length → t.byteAt (s.pos + k) = bs[k]?) ∧
    (∀ p, p < s.pos ∨ s.pos + bs.length ≤ p → t.byteAt p = s.byteAt p) ∧
    t.pos = s.pos + bs.length ∧ t.result = s.result ∧ t.refusalMark = s.refusalMark ∧ t.inbox = s.inbox

/-- The request in progress is the same request with the same index; its phase, token and value mark may differ. -/
def SameRequest (s t : State) : Prop :=
  t.inFlight.map Transient.request = s.inFlight.map Transient.request ∧
    t.inFlight.map Transient.index = s.inFlight.map Transient.index

/-- The canonical form of memory as cells: positions strictly rising. An unlisted position holds no byte, so no cell can
equal what it reads as. Every sink has this form (log 6). -/
abbrev Memory.wf (cells : List Host.Cell) : Prop := cells.Pairwise fun x y => x.1 < y.1

/-- What an emission row appends at the append position: the pattern of its row, the token rows ORed with the
contributions that came before (R68), and nothing for a `Register` part that an RMA slot has yet to complete. -/
def emitted (i : Instr) (s : State) : List Byte :=
  match i with
  | .tokReg _ => if rmaPending s then [] else (encode i).map (s.tokSoFar ||| ·)
  | .tokRegonly _ _ | .tokRegptr _ _ | .tokDisp8 _ _ | .tokDisp32 _ _ | .tokAbs _ | .tokNone =>
    (encode i).map (s.tokSoFar ||| ·)
  | .encode _ | .opc _ | .imm8 _ | .imm16 _ | .imm32 _ | .addr32 _ | .disp8 _ | .disp32 _ | .novalueRel | .novalue
  | .add _ _ => encode i

/-- R53: the methods whose value is a number of the slot's size. -/
def numericMethod (m : AddressingMethod) : Bool :=
  m == .memoryAddress || m == .directAddress || m == .immediateData

/-- Slot 1 of a request, when it has an effective operand: the selected variant's method and size, and the operand
(R21, R24). -/
def requestSlot1 (r : Request) : Option (AddressingMethod × OperandSize × Operand) :=
  r.variant.bind fun v => r.eff1.map fun o => (v.method1, v.size1, o)

/-- Slot 2 of a request, when it has an effective operand. -/
def requestSlot2 (r : Request) : Option (AddressingMethod × OperandSize × Operand) :=
  r.variant.bind fun v => r.eff2.map fun o => (v.method2, v.size2, o)

/-- The slots of a request that have an effective operand, slot 1 first. -/
def requestSlots (r : Request) : List (AddressingMethod × OperandSize × Operand) :=
  (requestSlot1 r).toList ++ (requestSlot2 r).toList

/-- R93: a `Register` slot that holds no register. -/
def notARegister (x : AddressingMethod × OperandSize × Operand) : Prop :=
  x.1 = .register ∧ x.2.2.value.number.isSome = true

/-- R94(a): an RMA slot that holds an immediate. -/
def immediateInRma (x : AddressingMethod × OperandSize × Operand) : Prop :=
  x.1 = .registerOrMemoryAddress ∧ ∃ n, x.2.2.value = .imm n

/-- R94(b) to (d): a numeric slot that holds a register (D13) or a number that does not fit its width (D12), or an RMA
slot of an opcode without a token that holds an immediate of 2^32 or more (D14). -/
def unwritable (hasToken : Bool) (x : AddressingMethod × OperandSize × Operand) : Prop :=
  (numericMethod x.1 = true ∧ ∃ g, x.2.2.value = .reg g) ∨
    (numericMethod x.1 = true ∧ ∃ w n, x.2.1.width = some w ∧ x.2.2.value.number = some n ∧ 2 ^ (8 * w) ≤ n) ∨
    (hasToken = false ∧ x.1 = .registerOrMemoryAddress ∧ ∃ n : Imm64, x.2.2.value = .imm n ∧ 2 ^ 32 ≤ n.toNat)

/-- R47 `vlen`. -/
def valueLength (m : AddressingMethod) (z : OperandSize) (v : Value) : Nat :=
  if numericMethod m then z.width.getD 0
  else if m = .registerOrMemoryAddress then (if v.number.isSome then 4 else 0)
  else 0

/-- R47 `clen`. -/
def correctionLength (c : Correction) : Nat :=
  match c with
  | .noCorr => 0
  | .short _ => 1
  | .long _ => 4

/-- R47 `Lk`. -/
def slotLength (x : AddressingMethod × OperandSize × Operand) : Nat :=
  valueLength x.1 x.2.1 x.2.2.value + correctionLength x.2.2.corr

end Sys2Proof.Machine
end

