-- ==== Sys2Proof/Certificates/Slice0/Obligations.lean ====
section
/-! DEFINITION. The statements for the provers. Each docstring names the rule of spec/ it states; a clause that rests
on one of the spec's own decisions or on a choice of this model says so. -/

open Sys2Proof Sys2Proof.Machine

/-! ### Reset -/

/-- 10_state.md R30, 70_reset_and_hazards.md R105 (decision D27): the state after a launch with any S0, and that the
block then waits. The empty inbox and the S0 of `State.reset` are the model's choices (logs 2, 4). -/
def Obligations.LaunchIsIdleAndWaits : Prop :=
  (∀ s0 : List Byte,
    (State.launch s0).sink = s0 ∧ (State.launch s0).pos = s0.length ∧ (State.launch s0).inFlight = none ∧
      (State.launch s0).result = none ∧ (State.launch s0).refusalMark = false ∧ (State.launch s0).inbox = [] ∧
      step (State.launch s0) = .next (State.launch s0)) ∧
    State.reset = State.launch Config.initialSink

/-- A launched state is good, whatever the sink holds. -/
def Obligations.LaunchedStateIsGood : Prop :=
  ∀ s0 : List Byte, (State.launch s0).Good = true

/-! ### The resolver -/

/-- R61: the four modifiers' mod bits; bits 5:0 are 0 (the spec reads that off the table). -/
def Obligations.ModBitsFollowTheModifierTable : Prop :=
  modBits .registerPointer = 0x00#8 ∧ modBits .registerDispShortPointer = 0x40#8 ∧
    modBits .registerDispLongPointer = 0x80#8 ∧ modBits .registerOnly = 0xC0#8 ∧
    ∀ m : RegOrMemModifier, modBits m &&& 0x3F#8 = 0#8

/-- R63: the modifier table, row by row. -/
def Obligations.ModifierFollowsValueCorrectionAndType : Prop :=
  ∀ (r : Reg) (a : Addr32) (n : Imm64) (d : BitVec 8) (l : BitVec 32) (c : Correction) (o : OperandType),
    determineModifier ⟨.reg r, .noCorr, .normal⟩ = .ok .registerOnly ∧
      determineModifier ⟨.reg r, .noCorr, .dereferenced⟩ = .ok .registerPointer ∧
      determineModifier ⟨.reg r, .short d, o⟩ = .ok .registerDispShortPointer ∧
      determineModifier ⟨.reg r, .long l, o⟩ = .ok .registerDispLongPointer ∧
      determineModifier ⟨.addr a, c, o⟩ = .ok .registerPointer ∧
      determineModifier ⟨.imm n, c, o⟩ = .error .invalidOperand

/-- R62: a `Register` slot fills the reg field whatever its size, correction and type; a value that is no register
raises `UnsupportedAddressing`. That bits 7:6 and 2:0 are 0 is the spec's own inference; that the writer still emits
the slot's correction, and nothing else, rests on R78's decision D15 (log 23), a choice. -/
def Obligations.RegisterSlotFillsTheRegField : Prop :=
  ∀ (z : OperandSize) (r : Reg) (a : Addr32) (n : Imm64) (c : Correction) (o : OperandType),
    tokenPart .register z ⟨.reg r, c, o⟩ = .ok ((r.zeroExtend 8 &&& 7#8) <<< 3) ∧
      ((r.zeroExtend 8 &&& 7#8) <<< 3) &&& 0xC7#8 = 0#8 ∧
      tokenPart .register z ⟨.addr a, c, o⟩ = .error .unsupportedAddressing ∧
      tokenPart .register z ⟨.imm n, c, o⟩ = .error .unsupportedAddressing ∧
      writeOperand .register z ⟨.reg r, c, o⟩ = .ok (writeCorrection c)

/-- R64: an RMA slot fills the mod and rm fields: a register its modifier's bits and its code, an address the fallback
0x05 (the same byte as its modifier's bits with rm = 5), an immediate raises `InvalidOperand`. A dereferenced register 5
gives 0x05 too; a register writes no bytes after the token (R74), so no SIB byte follows rm = 100: that rm = 100 and rm
= 101 get no special handling is R58's decision D29 (log 29), a choice. That bits 5:3 are 0 is the spec's own
inference. -/
def Obligations.RmaSlotFillsTheModAndRmFields : Prop :=
  ∀ (z : OperandSize) (r : Reg) (a : Addr32) (n : Imm64) (c : Correction) (o : OperandType),
    (∀ m, determineModifier ⟨.reg r, c, o⟩ = .ok m →
      tokenPart .registerOrMemoryAddress z ⟨.reg r, c, o⟩ = .ok (modBits m ||| (r.zeroExtend 8 &&& 7#8))) ∧
      tokenPart .registerOrMemoryAddress z ⟨.addr a, c, o⟩ = .ok 0x05#8 ∧
      (∀ m, determineModifier ⟨.addr a, c, o⟩ = .ok m → modBits m ||| 5#8 = 0x05#8) ∧
      tokenPart .registerOrMemoryAddress z ⟨.imm n, c, o⟩ = .error .invalidOperand ∧
      tokenPart .registerOrMemoryAddress z ⟨.reg 5#3, .noCorr, .dereferenced⟩ = .ok 0x05#8 ∧
      writeRmaValue (.reg r) = .ok [] ∧
      ∀ (op : Operand) (b : Byte), tokenPart .registerOrMemoryAddress z op = .ok b → b &&& 0x38#8 = 0#8

/-- R65: any other method given to the resolver raises `UnsupportedAddressing`; within a request such a slot
contributes nothing instead (R67, decision D7, log 22). -/
def Obligations.OtherMethodsNeverReachTheResolver : Prop :=
  ∀ (m : AddressingMethod) (z : OperandSize) (op : Operand),
    m ≠ .register → m ≠ .registerOrMemoryAddress →
      tokenPart m z op = .error .unsupportedAddressing ∧ slotPart m z (some op) = .ok 0x00#8

/-- R68, R69 (decisions D7, D8; logs 22, 24): the token is the OR of the contributing slots; slot 1's failure is the
one reported; two `Register` slots OR their codes and two RMA slots their mod and rm fields, without an error. -/
def Obligations.TokenOrsTheSlotsInOrder : Prop :=
  ∀ (v : Variant) (e1 e2 : Option Operand),
    (∀ k, slotPart v.method1 v.size1 e1 = .error k → computeToken v e1 e2 = .error k) ∧
      (∀ a k, slotPart v.method1 v.size1 e1 = .ok a → slotPart v.method2 v.size2 e2 = .error k →
        computeToken v e1 e2 = .error k) ∧
      (∀ a b, slotPart v.method1 v.size1 e1 = .ok a → slotPart v.method2 v.size2 e2 = .ok b →
        computeToken v e1 e2 = .ok (a ||| b)) ∧
      (∀ g g' : Reg, ∀ c c' o o', v.method1 = .register → v.method2 = .register →
        computeToken v (some ⟨.reg g, c, o⟩) (some ⟨.reg g', c', o'⟩) = .ok (tokenBits 0#2 (g ||| g') 0#3)) ∧
      (∀ b b' : Reg, v.method1 = .registerOrMemoryAddress → v.method2 = .registerOrMemoryAddress →
        computeToken v (some ⟨.reg b, .noCorr, .normal⟩) (some ⟨.reg b', .noCorr, .dereferenced⟩) =
          .ok (tokenBits 3#2 0#3 (b ||| b')))

/-! ### The emission rows -/

/-- R83, R48: OPC appends the opcode byte as it is, and LOOKUP is next; every admitted request's first byte is its
opcode's, whatever its mnemonic. That the row does so on every state, in its phase or not, and the value mark it clears,
are the model's choices (logs 10, 8). -/
def Obligations.OpcRowAppendsTheOpcodeByte : Prop :=
  (∀ (b : Byte) (s : State),
    exec (.opc b) s = .next { s with
      sink := s.sink ++ [b]
      inFlight := s.inFlight.map fun t => { t with phase := t.phase.next, valueDone := false } }) ∧
    ∀ (r : Request) (b : Byte) (s : State), s.inFlight = none → r.opcode.wf = true → r.opcode.bytes = [b] →
      ∃ t rest, exec (.encode r) s = .next t ∧ t.sink = s.sink ++ b :: rest

/-- R51, R68, R85: the token rows of an RMA slot write the bits `mm rrr bbb` ORed with the contributions that came
before (none, or the reg field's own), and OP1 is next; TOK_NONE, the row of an opcode with a token to which no slot
contributes, writes 0x00, which is the spec's decision D7 (log 22), a choice. That the contributions come one row at a
time is the model's reading (log 9); that a row does so on every state, in its phase or not, and the value mark it
clears, are the model's choices (logs 10, 8). -/
def Obligations.TokenRowsWriteTheirPattern : Prop :=
  ∀ (g b : Reg) (s : State),
    let wrote := fun (tok : Byte) => ({ s with
      sink := s.sink ++ [s.tokSoFar ||| tok]
      inFlight := s.inFlight.map fun t =>
        { t with phase := t.phase.next, tok := some (s.tokSoFar ||| tok), valueDone := false } } : State)
    exec (.tokRegonly g b) s = .next (wrote (3#2 ++ g ++ b)) ∧
      exec (.tokRegptr g b) s = .next (wrote (0#2 ++ g ++ b)) ∧
      exec (.tokDisp8 g b) s = .next (wrote (1#2 ++ g ++ b)) ∧
      exec (.tokDisp32 g b) s = .next (wrote (2#2 ++ g ++ b)) ∧
      exec (.tokAbs g) s = .next (wrote (0#2 ++ g ++ 5#3)) ∧
      exec .tokNone s = .next (wrote 0#8)

/-- R62, R68: TOK_REG ORs `code << 3` into the token; while an RMA slot of the request is still to contribute nothing is
written, and the phase stays; else the token is written and OP1 is next (log 9). That the row does so on every state, in
its phase or not, and the value mark it clears, are the model's choices (logs 10, 8). -/
def Obligations.TokRegOrsItsCodeIntoTheToken : Prop :=
  ∀ (g : Reg) (s : State),
    (rmaPending s = true → exec (.tokReg g) s = .next { s with
      inFlight := s.inFlight.map fun t => { t with tok := some (s.tokSoFar ||| (0#2 ++ g ++ 0#3)) } }) ∧
      (rmaPending s = false → exec (.tokReg g) s = .next { s with
        sink := s.sink ++ [s.tokSoFar ||| (0#2 ++ g ++ 0#3)]
        inFlight := s.inFlight.map fun t =>
          { t with phase := t.phase.next, tok := some (s.tokSoFar ||| (0#2 ++ g ++ 0#3)), valueDone := false } })

/-- R53, R72, R74: the value rows append their number least significant byte first, and the operand's correction is
next. That value and correction are two emissions, with a mark between them that R28 does not name, is the model's
choice (log 8), and so is that a row does so on every state, in its phase or not (log 10). That every address is
accepted and no write is aligned is decisions D31 and D30 (log 29), choices. -/
def Obligations.ValueRowsAppendTheirNumberLittleEndian : Prop :=
  ∀ (v8 : BitVec 8) (v16 : BitVec 16) (v32 : BitVec 32) (s : State),
    let wrote := fun (bs : List Byte) => ({ s with
      sink := s.sink ++ bs
      inFlight := s.inFlight.map fun t => { t with valueDone := true } } : State)
    exec (.imm8 v8) s = .next (wrote [v8]) ∧
      exec (.imm16 v16) s = .next (wrote [v16.extractLsb' 0 8, v16.extractLsb' 8 8]) ∧
      exec (.imm32 v32) s = .next (wrote
        [v32.extractLsb' 0 8, v32.extractLsb' 8 8, v32.extractLsb' 16 8, v32.extractLsb' 24 8]) ∧
      exec (.addr32 v32) s = .next (wrote
        [v32.extractLsb' 0 8, v32.extractLsb' 8 8, v32.extractLsb' 16 8, v32.extractLsb' 24 8])

/-- R54, R77: the displacement rows append `d mod 256`, and the four bytes of `d mod 2^32`, least significant first; the
operand is done. Two's complement at 32 bits is presumed (decision D20, log 26). That a correction is an emission of its
own, whose end clears the value mark, and that a row does so on every state, in its phase or not, are the model's
choices (logs 8, 10). -/
def Obligations.DisplacementRowsAppendTwosComplement : Prop :=
  ∀ (d : BitVec 8) (l : BitVec 32) (s : State),
    (∃ t : State, exec (.disp8 d) s = .next t ∧ t.sink = s.sink ++ [BitVec.ofNat 8 (d.toInt % 256).toNat] ∧
      t.inFlight = s.inFlight.map (fun f => { f with phase := f.phase.next, valueDone := false }) ∧
      t.result = s.result ∧ t.refusalMark = s.refusalMark ∧ t.inbox = s.inbox) ∧
    ∃ t : State, exec (.disp32 l) s = .next t ∧
      t.sink = s.sink ++ (List.range 4).map (fun k => BitVec.ofNat 8 ((l.toInt % 2 ^ 32).toNat / 256 ^ k)) ∧
      t.inFlight = s.inFlight.map (fun f => { f with phase := f.phase.next, valueDone := false }) ∧
      t.result = s.result ∧ t.refusalMark = s.refusalMark ∧ t.inbox = s.inbox

/-- R75: a `RelativeOffset` slot writes no value bytes, and its value is neither written nor checked whatever it is.
That its correction follows rests on R78's decision D15 (log 23), a choice; the mark that the value is done is the
model's own (log 8), and so is that the row does so on every state, in its phase or not (log 10). -/
def Obligations.RelativeOffsetWritesOnlyItsCorrection : Prop :=
  (∀ s : State, exec .novalueRel s = .next { s with
    inFlight := s.inFlight.map fun t => { t with valueDone := true } }) ∧
    ∀ (z : OperandSize) (op : Operand), writeOperand .relativeOffset z op = .ok (writeCorrection op.corr)

/-- R76: an unused slot (`None`, `Register` or any unnamed method) is no error: it writes no value bytes. That its
correction follows rests on R78's decision D15 (log 23), a choice; the mark that the value is done is the model's own
(log 8), and so is that the row does so on every state, in its phase or not (log 10). -/
def Obligations.UnusedSlotsWriteOnlyTheirCorrection : Prop :=
  (∀ s : State, exec .novalue s = .next { s with
    inFlight := s.inFlight.map fun t => { t with valueDone := true } }) ∧
    ∀ (z : OperandSize) (op : Operand) (x : MethodTag),
      writeOperand .none z op = .ok (writeCorrection op.corr) ∧
        writeOperand .register z op = .ok (writeCorrection op.corr) ∧
        writeOperand (.other x) z op = .ok (writeCorrection op.corr)

/-- R31, R32, R38: the frame of every emission row: it answers a next state; it stores its bytes at the append position
and nowhere else; the last result, the refusal mark, the caller's requests and the request in progress with its index
are as before. Some of the bytes rest on choices: TOK_REG stores nothing while an RMA slot is to come (log 9), TOK_NONE
stores 0x00 (decision D7, log 22), DISP32 is two's complement (decision D20, log 26, presumed), and a value row stores
no correction (log 8). That an append never fails is decision D2 (log 5), and that it has no alignment decision D30 (log
29), choices. That the request stays as it was sampled is decision D26 (log 28); that a row answers on every state, in
its phase or not, is the model's choice (log 10). -/
def Obligations.EmissionRowsAppendAndLeaveTheRest : Prop :=
  ∀ (i : Instr) (s : State), placedRequest i = none →
    ∃ t, exec i s = .next t ∧ AppendsOnly (emitted i s) s t ∧ SameRequest s t

/-! ### Whole requests -/

/-- R46, R88: a request whose slots take its operands, on an idle block, appends exactly the layout `OPC ++ TOK ++ V1 ++
C1 ++ V2 ++ C2` of the encoding tables, its result is Ok, and nothing else changes; ADD does so for its own request. It
rests on the spec's own choices: the conditions on the slots include decisions D12 to D14 (log 20); the layout includes
that operand 2 is absent without operand 1 (D6, log 21), which slots reach the token and what their collisions give (D7,
log 22), a correction after every operand (D15, log 23) and two's complement at 32 bits (D20, log 26, presumed); a
mnemonic listed twice takes its first variant's slots (D5, log 25); no opcode extension, SIB byte or prefix is written
(D28, D29, log 29); and no append fails (D2, log 5). -/
def Obligations.PairedRequestAppendsItsLayout : Prop :=
  (∀ (r : Request) (s : State), s.inFlight = none → r.opcode.wf = true → r.declared = true → r.slot1Ok = true →
    r.slot2Ok = true →
      exec (.encode r) s = .next { s with sink := s.sink ++ encodeRequest r, result := some .ok }) ∧
    ∀ (o1 o2 : Option Operand) (s : State), s.inFlight = none → (addRequest o1 o2).slot1Ok = true →
      (addRequest o1 o2).slot2Ok = true →
        exec (.add o1 o2) s = .next { s with sink := s.sink ++ encodeRequest (addRequest o1 o2), result := some .ok }

/-- R97: what a failed request leaves in the sink, by the phase that fails, with its failure as the result (R96). What
the phases compute is the resolver's and the writer's, with the choices they rest on: decisions D6 to D8, D12 to D16 and
D20 (logs 20 to 24, 26); a mnemonic listed twice takes its first variant's slots (D5, log 25). -/
def Obligations.FailedRequestKeepsItsPrefix : Prop :=
  ∀ (r : Request) (b : Byte) (s : State), s.inFlight = none → r.opcode.wf = true → r.opcode.bytes = [b] →
    let failed := fun (bs : List Byte) (k : Failure) =>
      ({ s with sink := s.sink ++ bs, result := some (.fault k) } : State)
    (r.declared = false → exec (.encode r) s = .next (failed [b] .unsupportedMnemonic)) ∧
      ∀ v, r.variant = some v →
        (∀ k, r.opcode.hasRegisterToken = true → computeToken v r.eff1 r.eff2 = .error k →
          exec (.encode r) s = .next (failed [b] k)) ∧
          ∀ tok, writeToken r.opcode.hasRegisterToken v r.eff1 r.eff2 = .ok tok →
            (∀ k, writeSlot v.method1 v.size1 r.eff1 = .error k →
              exec (.encode r) s = .next (failed ([b] ++ tok) k)) ∧
              ∀ b1 k, writeSlot v.method1 v.size1 r.eff1 = .ok b1 → writeSlot v.method2 v.size2 r.eff2 = .error k →
                exec (.encode r) s = .next (failed ([b] ++ tok ++ b1) k)

/-- R92: `UnsupportedMnemonic` is raised exactly when the opcode does not declare the mnemonic, only in phase LOOKUP,
and the sink has then gained exactly the opcode byte. -/
def Obligations.UnsupportedMnemonicExactlyWhenUndeclared : Prop :=
  (∀ (r : Request) (s : State), s.inFlight = none → r.opcode.wf = true →
    ∃ t, exec (.encode r) s = .next t ∧
      (t.result = some (.fault .unsupportedMnemonic) ↔ r.mnemonic ∉ r.opcode.mnemonics) ∧
      (t.result = some (.fault .unsupportedMnemonic) → t.sink = s.sink ++ r.opcode.bytes)) ∧
    ∀ (s s' : State) (t : Transient), s.inFlight = some t → s.result ≠ some (.fault .unsupportedMnemonic) →
      step s = .next s' → s'.result = some (.fault .unsupportedMnemonic) →
        t.phase = .lookup ∧ t.request.mnemonic ∉ t.request.opcode.mnemonics

/-- R93: `UnsupportedAddressing` is raised only in phase TOKEN, and comes only from a `Register` slot of an opcode with
a token that holds no register, with exactly the opcode byte appended. That such a slot 1 raises it whatever slot 2
holds rests on decision D8 (log 24), that no other method does on the filter of decision D7 (log 22), that slot 2 does
not without operand 1 on decision D6 (log 21), and which variant's slots count for a mnemonic listed twice on decision
D5 (log 25), all choices. -/
def Obligations.UnsupportedAddressingNeedsARegisterSlot : Prop :=
  (∀ (r : Request) (s : State), s.inFlight = none → r.opcode.wf = true →
    ∃ t, exec (.encode r) s = .next t ∧
      (t.result = some (.fault .unsupportedAddressing) →
        r.opcode.hasRegisterToken = true ∧ t.sink = s.sink ++ r.opcode.bytes ∧ ∃ x ∈ requestSlots r, notARegister x) ∧
      (r.opcode.hasRegisterToken = true → (∃ x, requestSlot1 r = some x ∧ notARegister x) →
        t.result = some (.fault .unsupportedAddressing))) ∧
    ∀ (s s' : State) (t : Transient), s.inFlight = some t → s.result ≠ some (.fault .unsupportedAddressing) →
      step s = .next s' → s'.result = some (.fault .unsupportedAddressing) →
        t.phase = .token ∧ t.request.opcode.hasRegisterToken = true ∧
          ∃ v, t.variant = some v ∧
            ((v.method1 = .register ∧ ∃ o, t.request.eff1 = some o ∧ o.value.number.isSome = true) ∨
              (v.method2 = .register ∧ ∃ o, t.request.eff2 = some o ∧ o.value.number.isSome = true))

/-- R94 (decisions D12, D13, D14; log 20): `InvalidOperand` comes only from one of the four causes: (a) an immediate in
an RMA slot of an opcode with a token, (b) a register in a numeric slot, (c) a number that does not fit its width, (d)
an immediate of 2^32 or more in an RMA slot without a token. A request in progress raises it for (a) in phase TOKEN
only, and for (b) to (d) in OP1 or OP2 only, by the slot that the phase writes. That slot 2 does not raise (a) without
operand 1 rests on decision D6 (log 21), and which variant's slots count for a mnemonic listed twice on decision D5 (log
25). The premise of the step clause is `Good`, the invariant that `GoodStatesStepToGoodStates` states: past TOKEN no RMA
slot of an opcode with a token holds an immediate. -/
def Obligations.InvalidOperandHasOneOfFourCauses : Prop :=
  (∀ (r : Request) (s : State), s.inFlight = none → r.opcode.wf = true →
    ∃ t, exec (.encode r) s = .next t ∧
      (t.result = some (.fault .invalidOperand) →
        ∃ x ∈ requestSlots r,
          (r.opcode.hasRegisterToken = true ∧ immediateInRma x) ∨ unwritable r.opcode.hasRegisterToken x)) ∧
    ∀ (s s' : State) (t : Transient), s.Good = true → s.inFlight = some t →
      s.result ≠ some (.fault .invalidOperand) → step s = .next s' → s'.result = some (.fault .invalidOperand) →
        (t.phase = .token ∧ t.request.opcode.hasRegisterToken = true ∧
            ∃ x ∈ requestSlots t.request, immediateInRma x) ∨
          (t.phase = .op1 ∧
            ∃ x, requestSlot1 t.request = some x ∧ unwritable t.request.opcode.hasRegisterToken x) ∨
          (t.phase = .op2 ∧
            ∃ x, requestSlot2 t.request = some x ∧ unwritable t.request.opcode.hasRegisterToken x)

/-- R95: `UnsupportedSize` comes only from a numeric slot with an unnamed size, and is raised in phase OP1 or OP2; an
unnamed size in any other slot raises nothing in the resolver or the writer. That such a slot raises it whatever its
value, a register or too large a number too, rests on the check order of R73, decision D16 (log 24), a choice. -/
def Obligations.UnsupportedSizeNeedsANumericSlot : Prop :=
  (∀ (r : Request) (s : State), s.inFlight = none → r.opcode.wf = true →
    ∃ t, exec (.encode r) s = .next t ∧
      (t.result = some (.fault .unsupportedSize) →
        ∃ x ∈ requestSlots r, numericMethod x.1 = true ∧ ∃ y, x.2.1 = .other y)) ∧
    (∀ (s s' : State) (t : Transient), s.inFlight = some t → s.result ≠ some (.fault .unsupportedSize) →
      step s = .next s' → s'.result = some (.fault .unsupportedSize) → t.phase = .op1 ∨ t.phase = .op2) ∧
    (∀ (m : AddressingMethod) (y : SizeTag) (op : Operand), numericMethod m = true →
      writeOperand m (.other y) op = .error .unsupportedSize) ∧
    ∀ (m : AddressingMethod) (y : SizeTag) (op : Operand), numericMethod m = false →
      writeOperand m (.other y) op ≠ .error .unsupportedSize ∧ tokenPart m (.other y) op ≠ .error .unsupportedSize

/-- R91 to R95: an admitted request whose mnemonic is declared ends Ok exactly when both its slots take their operands.
It rests on the spec's own choices: the pairings include decisions D12 to D14 (log 20); that an opcode with a token ends
Ok with a numeric or an unused slot rests on decision D7 (log 22), with operand 1 absent on decision D6 (log 21), and
which variant's slots count for a mnemonic listed twice on decision D5 (log 25). -/
def Obligations.RequestSucceedsExactlyWhenPaired : Prop :=
  ∀ (r : Request) (s : State), s.inFlight = none → r.opcode.wf = true → r.declared = true →
    ∃ t, exec (.encode r) s = .next t ∧ (t.result = some .ok ↔ r.slot1Ok = true ∧ r.slot2Ok = true)

/-- R81, R99 (decisions D3, D4, D25; log 15): the refusals in their order; each appends nothing, sets the mark, records
its reason, and leaves a request in progress as it was. -/
def Obligations.InadmissibleRequestsAreRefused : Prop :=
  ∀ (r : Request) (s : State),
    let refused := fun (why : RefusalReason) =>
      ({ s with result := some (.refused why), refusalMark := true } : State)
    (s.inFlight ≠ none → exec (.encode r) s = .next (refused .sharedSink)) ∧
      (s.inFlight ≠ none → ∀ o1 o2, exec (.add o1 o2) s = .next (refused .sharedSink)) ∧
      (s.inFlight = none → r.opcode.bytes.length ≠ 1 → exec (.encode r) s = .next (refused .multiByteOpcode)) ∧
      (s.inFlight = none → r.opcode.bytes.length = 1 → r.opcode.parallel = false →
        exec (.encode r) s = .next (refused .malformedMetadata))

/-- R25, R30, R99, R100: the frame of the two request rows: they answer a next state; every byte before the append
position reads as before and none is taken away; the caller's other requests, the request in progress and the idle block
are as before; the mark changes only by a refusal, which appends nothing. That a failed request is a next state too is
R91's decision D19 (log 14), and that a refused one is is read from R27, R99 and P4 (log 15); that no append fails is
decision D2 (log 5), a choice. -/
def Obligations.RequestRowsAppendAndLeaveTheRest : Prop :=
  ∀ (i : Instr) (s : State), placedRequest i ≠ none →
    ∃ t, exec i s = .next t ∧ (∀ p, p < s.pos → t.byteAt p = s.byteAt p) ∧ s.pos ≤ t.pos ∧ t.inbox = s.inbox ∧
      t.inFlight = s.inFlight ∧
      ((t.refusalMark = s.refusalMark ∧ (t.result = some .ok ∨ ∃ k, t.result = some (.fault k))) ∨
        ∃ why, t = { s with result := some (.refused why), refusalMark := true })

/-- R89: on an idle block the bytes and the result of a request are a function of the request alone: not of the sink's
earlier contents, the position or any earlier request. That a request which is not admitted answers a next state too,
with its refusal as the result and the mark set, is R99's and read from R27, R99 and P4 (log 15); that no append fails
is decision D2 (log 5), a choice. -/
def Obligations.RequestOutcomeIsItsOwnFunction : Prop :=
  ∀ r : Request, ∃ (bs : List Byte) (res : RequestResult), ∀ s : State, s.inFlight = none →
    exec (.encode r) s = .next { s with
      sink := s.sink ++ bs
      result := some res
      refusalMark := s.refusalMark || (match res with | .refused _ => true | .ok | .fault _ => false) }

/-- R24: operand 2 counts as absent whenever operand 1 is. For the token this is the spec's choice (decision D6,
log 21). -/
def Obligations.OperandTwoNeedsOperandOne : Prop :=
  ∀ (o : OpCode) (m : Mnemonic) (x : Option Operand) (s : State),
    exec (.encode ⟨o, m, none, x⟩) s = exec (.encode ⟨o, m, none, none⟩) s ∧
      exec (.add none x) s = exec (.add none none) s

/-- R76, R111(d): without a token a register operand is encoded nowhere, in either slot and whatever the methods of the
selected variant: any other register there gives the same outcome. Where the slot's method is numeric that outcome is
the failure of decision D13 (log 20). -/
def Obligations.RegisterWithoutTokenIsEncodedNowhere : Prop :=
  ∀ (o : OpCode) (m : Mnemonic) (g g' : Reg) (c : Correction) (ty : OperandType) (x : Option Operand) (s : State),
    o.hasRegisterToken = false →
      exec (.encode ⟨o, m, some ⟨.reg g, c, ty⟩, x⟩) s = exec (.encode ⟨o, m, some ⟨.reg g', c, ty⟩, x⟩) s ∧
        exec (.encode ⟨o, m, x, some ⟨.reg g, c, ty⟩⟩) s = exec (.encode ⟨o, m, x, some ⟨.reg g', c, ty⟩⟩) s

/-- 95_test_vectors.md W4 with 90_conflicts.md C1: one `Register` slot holding register a and one RMA slot holding a
plain register b, in either order, give the token `(a << 3) | 0xC0 | b`. That the `Register` slot's correction follows
it rests on R78's decision D15 (log 23), a choice; the bytes of a negative Long one are decision D20 (log 26,
presumed). -/
def Obligations.RegisterPairTokenIsRegisterOnly : Prop :=
  ∀ (o : OpCode) (m : Mnemonic) (v : Variant) (byte : Byte) (a b : Reg) (c : Correction) (ty : OperandType) (s : State),
    s.inFlight = none → o.wf = true → o.bytes = [byte] → o.hasRegisterToken = true →
    let token := (a.zeroExtend 8 <<< 3) ||| 0xC0#8 ||| b.zeroExtend 8
    let ended := fun (bs : List Byte) => ({ s with sink := s.sink ++ bs, result := some .ok } : State)
    let regOp := (⟨.reg a, c, ty⟩ : Operand)
    let rmaOp := (⟨.reg b, .noCorr, .normal⟩ : Operand)
    (v.method1 = .register → v.method2 = .registerOrMemoryAddress →
      (⟨o, m, some regOp, some rmaOp⟩ : Request).variant = some v →
        exec (.encode ⟨o, m, some regOp, some rmaOp⟩) s = .next (ended ([byte, token] ++ writeCorrection c))) ∧
      (v.method1 = .registerOrMemoryAddress → v.method2 = .register →
        (⟨o, m, some rmaOp, some regOp⟩ : Request).variant = some v →
          exec (.encode ⟨o, m, some rmaOp, some regOp⟩) s = .next (ended ([byte, token] ++ writeCorrection c)))

/-- R51, R56, R82 (W1, W2, W6): ADD with a register operand 1 in each of its forms and a register operand 2. Some of it
rests on choices of the spec: no opcode extension (D28) and no SIB byte or other handling of rm = 100 and 101 (D29, log
29); the four bytes of a negative Long displacement are two's complement (decision D20, log 26, presumed); an absent
operand 2 leaves the reg field 0 (E28, decision D7, log 22); and an absent operand 1 makes operand 2 absent and the
token 0x00 (E29, decisions D6 and D7, logs 21 and 22). -/
def Obligations.AddEncodesRegisterForms : Prop :=
  ∀ (b g : Reg) (d : BitVec 8) (l : BitVec 32) (ty ty' : OperandType) (s : State), s.inFlight = none →
    let op2 := some (⟨.reg g, .noCorr, ty'⟩ : Operand)
    let ended := fun (bs : List Byte) => ({ s with sink := s.sink ++ bs, result := some .ok } : State)
    exec (.add (some ⟨.reg b, .noCorr, .normal⟩) op2) s = .next (ended [0x01#8, 3#2 ++ g ++ b]) ∧
      exec (.add (some ⟨.reg b, .noCorr, .dereferenced⟩) op2) s = .next (ended [0x01#8, 0#2 ++ g ++ b]) ∧
      exec (.add (some ⟨.reg b, .short d, ty⟩) op2) s = .next (ended [0x01#8, 1#2 ++ g ++ b, d]) ∧
      exec (.add (some ⟨.reg b, .long l, ty⟩) op2) s = .next (ended [0x01#8, 2#2 ++ g ++ b,
        l.extractLsb' 0 8, l.extractLsb' 8 8, l.extractLsb' 16 8, l.extractLsb' 24 8]) ∧
      exec (.add (some ⟨.reg b, .noCorr, .normal⟩) none) s = .next (ended [0x01#8, 3#2 ++ 0#3 ++ b]) ∧
      exec (.add none op2) s = .next (ended [0x01#8, 0x00#8])

/-- R51, R52, R64, R74, R78: ADD with an address operand 1: the fallback token, the four address bytes, then its
correction, then operand 2's (that a correction follows on every method is the spec's reading, decision D15, log 23; the
bytes of a negative Long one are decision D20, log 26, presumed). The token is the one of a dereferenced register 5,
which is followed by no address bytes. That rm = 101 gets no special handling is decision D29, and that every address is
accepted decision D31 (log 29), choices. -/
def Obligations.AddEncodesAddressWithFallbackToken : Prop :=
  ∀ (a : Addr32) (g : Reg) (c c' : Correction) (ty ty' : OperandType) (s : State), s.inFlight = none →
    let op2 := some (⟨.reg g, c', ty'⟩ : Operand)
    let ended := fun (bs : List Byte) => ({ s with sink := s.sink ++ bs, result := some .ok } : State)
    exec (.add (some ⟨.addr a, c, ty⟩) op2) s = .next (ended ([0x01#8, 0#2 ++ g ++ 5#3,
      a.extractLsb' 0 8, a.extractLsb' 8 8, a.extractLsb' 16 8, a.extractLsb' 24 8] ++ writeCorrection c ++
        writeCorrection c')) ∧
      exec (.add (some ⟨.reg 5#3, .noCorr, .dereferenced⟩) op2) s =
        .next (ended ([0x01#8, 0#2 ++ g ++ 5#3] ++ writeCorrection c'))

/-- R62, R63, R93, R94, R98 (decision D8, log 24): ADD with an immediate operand 1 fails with `InvalidOperand` whatever
operand 2 is; with an operand 2 that is no register and an operand 1 that is no immediate, with
`UnsupportedAddressing`; either way it leaves just the opcode byte. -/
def Obligations.AddRejectsOperandsItsSlotsCannotHold : Prop :=
  ∀ (n : Imm64) (op1 op2 : Operand) (c : Correction) (ty : OperandType) (x : Option Operand) (s : State),
    s.inFlight = none →
    let failed := fun (k : Failure) => ({ s with sink := s.sink ++ [0x01#8], result := some (.fault k) } : State)
    exec (.add (some ⟨.imm n, c, ty⟩) x) s = .next (failed .invalidOperand) ∧
      ((∀ k, op1.value ≠ .imm k) → (∀ g, op2.value ≠ .reg g) →
        exec (.add (some op1) (some op2)) s = .next (failed .unsupportedAddressing))

/-- R47: the length of a successful encoding, and that it is 1 to 18 bytes. As the layout does, it rests on the spec's
own choices: the conditions on the slots include decisions D12 to D14 (log 20); that operand 2 does not count without
operand 1 is D6 (log 21); that a slot which skips the token succeeds is D7 (log 22); that a correction counts on every
method is D15 (log 23); a mnemonic listed twice takes its first variant's slots (D5, log 25); and no SIB byte or prefix
is written (D29, log 29). -/
def Obligations.EncodingLengthFollowsTheMetadata : Prop :=
  ∀ (r : Request) (s : State), s.inFlight = none → r.opcode.wf = true → r.declared = true → r.slot1Ok = true →
    r.slot2Ok = true →
      ∃ t, exec (.encode r) s = .next t ∧
        t.pos = s.pos + 1 + (if r.opcode.hasRegisterToken then 1 else 0) + ((requestSlots r).map slotLength).sum ∧
        s.pos + 1 ≤ t.pos ∧ t.pos ≤ s.pos + 18

/-! ### The writer and the lookup -/

/-- R72, R73 (decisions D12, D13, D16; logs 20, 24): the checks of a numeric write in their order, and what it appends
when all pass. -/
def Obligations.NumericWriteChecksSizeVariantRange : Prop :=
  ∀ (m : AddressingMethod) (z : OperandSize) (v : Value), numericMethod m = true →
    (z.width = none → writeValue m z v = .error .unsupportedSize) ∧
      (∀ w, z.width = some w → v.number = none → writeValue m z v = .error .invalidOperand) ∧
      (∀ w n, z.width = some w → v.number = some n → 2 ^ (8 * w) ≤ n → writeValue m z v = .error .invalidOperand) ∧
      ∀ w n, z.width = some w → v.number = some n → n < 2 ^ (8 * w) →
        writeValue m z v = .ok ((List.range w).map fun k => BitVec.ofNat 8 (n / 256 ^ k))

/-- R74 (decision D14, log 20): an RMA value at any declared size: nothing for a register, the four bytes of an address
or of an immediate that fits, `InvalidOperand` for one that does not. -/
def Obligations.RmaValueIsFourBytesAtAnySize : Prop :=
  ∀ (z : OperandSize) (g : Reg) (a : Addr32) (n : Imm64),
    writeValue .registerOrMemoryAddress z (.reg g) = .ok [] ∧
      writeValue .registerOrMemoryAddress z (.addr a) = .ok (bytesLe32 a) ∧
      (n.toNat < 2 ^ 32 → writeValue .registerOrMemoryAddress z (.imm n) = .ok (bytesLe32 (n.truncate 32))) ∧
      (2 ^ 32 ≤ n.toNat → writeValue .registerOrMemoryAddress z (.imm n) = .error .invalidOperand)

/-- 95_test_vectors.md W7: the bytes of a Dword immediate, read back least significant first, are its value; above 32
bits there is no round trip (decision D12, log 20). -/
def Obligations.DwordImmediateReadsBack : Prop :=
  ∀ n : Imm64,
    (n.toNat < 2 ^ 32 → ∃ b0 b1 b2 b3 : Byte, writeNumber .dword (.imm n) = .ok [b0, b1, b2, b3] ∧
      b0.toNat + 256 * b1.toNat + 256 ^ 2 * b2.toNat + 256 ^ 3 * b3.toNat = n.toNat) ∧
      (2 ^ 32 ≤ n.toNat → writeNumber .dword (.imm n) = .error .invalidOperand)

/-- R84 (decision D5, log 25): LOOKUP finds the least position of the mnemonic, and fails exactly when it is not
listed. -/
def Obligations.LookupFindsTheLeastIndex : Prop :=
  ∀ (l : List Mnemonic) (x : Mnemonic),
    (∀ j, firstIndex l x = some j ↔ l[j]? = some x ∧ ∀ k, k < j → l[k]? ≠ some x) ∧
      (firstIndex l x = none ↔ x ∉ l)

/-- R91: the result codes 0 to 4 (the numbers are the spec's own, decision D17). That a refusal has no code is this
model's choice (log 30): neither R91 nor D17 says so. -/
def Obligations.ResultCodesAreDistinct : Prop :=
  RequestResult.code .ok = some 0 ∧ RequestResult.code (.fault .unsupportedMnemonic) = some 1 ∧
    RequestResult.code (.fault .unsupportedAddressing) = some 2 ∧
    RequestResult.code (.fault .invalidOperand) = some 3 ∧ RequestResult.code (.fault .unsupportedSize) = some 4 ∧
    ∀ why, RequestResult.code (.refused why) = none

/-! ### The whole machine -/

/-- A step runs the instruction it selects: an idle block runs the next request as the record says (R60), which means
what ENCODE of it means (log 13); a placed emission row runs as itself, a placed request row too; and a table word is
placed as the decoder reads it. The caller's list of requests, a request as one step, and the placing are the model's
choices (logs 2, 1, 12). -/
def Obligations.StepRunsTheSelectedInstruction : Prop :=
  (∀ (s : State) (a : Arrival) (rest : List Arrival), s.inFlight = none → s.inbox = a :: rest → a.phased = false →
    step s = exec (instrOf a.request) { s with inbox := rest }) ∧
    (∀ (r : Request) (s : State), exec (instrOf r) s = exec (.encode r) s) ∧
    (∀ (s : State) (i : Instr), placedRequest i = none → step (s.place i) = exec i (s.place i)) ∧
    (∀ (s : State) (i : Instr), placedRequest i ≠ none → step (s.place i) = exec i { s with inFlight := none }) ∧
    ∀ (s : State) (nbits w : Nat) (i : Instr), decodeTableWord nbits w = some i → s.withFetchWord nbits w = s.place i

/-- R43, R81 (decision D25, logs 3, 15): a request issued while another is in progress is refused, and the one in
progress, its sink and its bytes are untouched. -/
def Obligations.RivalRequestIsRefused : Prop :=
  ∀ (s : State) (t : Transient) (a : Arrival) (rest : List Arrival), s.inFlight = some t → s.inbox = a :: rest →
    a.during = some t.phase →
      step s = .next { s with inbox := rest, result := some (.refused .sharedSink), refusalMark := true }

/-- R82, R44, R96: while a request is in progress a step keeps the request as it was sampled, and its phase stays or
moves to the next one in R82's order; it ends only Ok from DONE or by a failure, and ending appends nothing. That the
sample is kept is R44's decision D26 (log 28), a choice. That a phase may stay for a step is the model's granularity:
value and correction apart (log 8), the token's `Register` part apart (log 9), a rival refused between (log 3). That a
failure leaves the block idle at once is read from R96 and R100 (log 17). -/
def Obligations.PhasesRunInOrderOnTheSampledRequest : Prop :=
  ∀ (s s' : State) (t : Transient), s.inFlight = some t → step s = .next s' →
    (∃ t', s'.inFlight = some t' ∧ t'.request = t.request ∧ (t'.phase = t.phase ∨ t'.phase = t.phase.next)) ∨
      (s'.inFlight = none ∧ s'.sink = s.sink ∧
        ((t.phase = .done ∧ s'.result = some .ok) ∨ ∃ k, s'.result = some (.fault k)))

/-- R25, R31, R39: the sink is append-only and never read: what a step does is the same for every content of the sink,
and it appends the same bytes after any of them. That an append never fails, however full the sink, is decision D2 (log
5), a choice. -/
def Obligations.SinkIsAppendOnlyAndNeverRead : Prop :=
  ∀ s : State,
    (∃ f, ∀ x : List Byte, step { s with sink := x } = .fault f) ∨
      ∃ (bs : List Byte) (t : State), ∀ x : List Byte, step { s with sink := x } = .next { t with sink := x ++ bs }

/-- R99: the refusal mark stays for the whole run, and only a refusal, which appends nothing and leaves the request in
progress alone, sets it. That the run goes on after a refusal is read from R27, R99 and P4 (log 15). -/
def Obligations.RefusalMarkIsSetOnlyByARefusal : Prop :=
  ∀ s s' : State, step s = .next s' →
    (s.refusalMark = true → s'.refusalMark = true) ∧
      (s.refusalMark = false → s'.refusalMark = true →
        s'.sink = s.sink ∧ s'.inFlight = s.inFlight ∧ ∃ why, s'.result = some (.refused why))

/-- R28, R81, R84, R85: from every good state a step answers a next state, and that state is good: the request in
progress is an admitted one, its index the mnemonic's first (decision D5, log 25, a choice), its token the one of R68.
The machine never stops: a failure is a result (decision D19, log 14), and so is a refusal (log 15). What a good state
allows between two emissions of one phase is the model's granularity: the value mark (log 8) and the token's `Register`
part (log 9). -/
def Obligations.GoodStatesStepToGoodStates : Prop :=
  ∀ s : State, s.Good = true → ∃ t, step s = .next t ∧ t.Good = true

/-- R82, R88, R97 (log 1): a request whose phases the block goes through one a step ends, in at most ten steps, in the
very state that the request as one transaction ends in, whatever it is, provided the caller's next request waits. The
caller's list and its waiting are logs 2 and 3; the number of steps is the model's granularity (logs 1, 8, 9). -/
def Obligations.PhasedRunEqualsTheTransaction : Prop :=
  ∀ (s : State) (r : Request) (d : Option Phase) (rest : List Arrival), s.inFlight = none →
    s.inbox = ⟨r, true, d⟩ :: rest → (∀ a, rest.head? = some a → a.during = none) →
      ∃ n, n ≤ 10 ∧ Sys2Proof.core.run n s = exec (.encode r) { s with inbox := rest }

/-- R101: every request in progress runs to its end: from a good state, whatever requests the caller issues meanwhile,
the block is idle after at most nine steps and one more for each of those. The number of steps is this model's
granularity, a choice that R101 does not make: one emission or phase change a step (log 1), value and correction apart
(log 8), the token's `Register` part apart (log 9), and one step for each rival (log 3) of the caller's list (log 2). -/
def Obligations.RequestInProgressAlwaysEnds : Prop :=
  ∀ s : State, s.Good = true →
    ∃ n t, n ≤ 9 + s.inbox.length ∧ Sys2Proof.core.run n s = .next t ∧ t.inFlight = none

/-! ### The encodings -/

/-- R46, R49, R53, R54, R59: decoding the bytes of any well-formed instruction whose slots do not share a token field,
by a reader who knows what R59 says must be known, gives the instruction back: no bit of an encoding is dropped. The
block decodes nothing (R5): the decoder and the template it is given are the model's choice (log 19). The layout rests
on the choices that `PairedRequestAppendsItsLayout` names (D5 to D7, D12 to D15, D20, D28, D29; logs 20 to 23, 25, 26,
29). -/
def Obligations.DecodeOfEncodeIsTheInstruction : Prop :=
  ∀ i : Instr, i.wf = true → i.collisionFree = true → decode i.field (encode i) = .ok i

/-- R48, R49, R53, R54: bytes that decode as some field are exactly the encoding of what they decode to: no bit is
passed over, and no two byte strings of one field decode to one instruction. The block decodes nothing (R5): the decoder
is the model's choice, and for a request that it is given a template and refuses bytes its result does not encode to
(log 19). The layout rests on the choices that `PairedRequestAppendsItsLayout` names (D5 to D7, D12 to D15, D20, D28,
D29; logs 20 to 23, 25, 26, 29). -/
def Obligations.EncodeOfDecodeIsTheBytes : Prop :=
  ∀ (f : Field) (bs : List Byte) (i : Instr), decode f bs = .ok i → encode i = bs

/-- R52: the address token and the token of a dereferenced register 5 are one byte. The block decodes nothing (R5): that
the decoder is told which of the two it reads is the model's choice (log 19). -/
def Obligations.AddressAndBasePointerTokensCoincide : Prop :=
  ∀ g : Reg, encode (.tokAbs g) = encode (.tokRegptr g 5#3) ∧
    decode .tokenAbs (encode (.tokRegptr g 5#3)) = .ok (.tokAbs g)

/-- Words written out from the bit patterns of R49, R53 and spec/opcode_table.json. The block decodes nothing (R5): that
the decoder is told the field it reads is the model's choice (log 19). -/
def Obligations.SampleWordsDecode : Prop :=
  decode .opcode [0x90#8] = .ok (.opc 0x90#8) ∧
    decode .tokenRma [0b11_011_000#8] = .ok (.tokRegonly 3#3 0#3) ∧
    decode .tokenRma [0b00_011_001#8] = .ok (.tokRegptr 3#3 1#3) ∧
    decode .tokenRma [0b01_011_101#8] = .ok (.tokDisp8 3#3 5#3) ∧
    decode .tokenRma [0b10_010_110#8] = .ok (.tokDisp32 2#3 6#3) ∧
    decode .tokenAbs [0b00_001_101#8] = .ok (.tokAbs 1#3) ∧
    decode .tokenReg [0b00_110_000#8] = .ok (.tokReg 6#3) ∧
    decode .imm16 [0x34#8, 0x12#8] = .ok (.imm16 0x1234#16) ∧
    decode .addr32 [0x00#8, 0x10#8, 0x40#8, 0x00#8] = .ok (.addr32 0x00401000#32) ∧
    decode .disp8 [0xFF#8] = .ok (.disp8 (BitVec.ofInt 8 (-1)))
end

