-- ==== Sys2Proof/Laws/Bytes.lean ====
section
/-! SUPPORT. The write primitives of 20_memory.md R32 against the bit patterns of 30_encoding.md R53, R54, and the
token arithmetic of 40_token_resolver.md against the token's fields (R49, R51). -/

namespace Sys2Proof.Machine

@[simp] theorem leBytes_length (n v : Nat) : (leBytes n v).length = n := by
  induction n generalizing v with
  | zero => rfl
  | succ n ih => simp [leBytes, ih]

@[simp] theorem wU8_eq (v : BitVec 8) : wU8 v = [v] := by simp [wU8, leBytes]

/-- The residue that `twos` takes is the bit vector's own number. -/
theorem twos_toInt (n : Nat) (d : BitVec (8 * n)) : twos n d.toInt = d.toNat := by
  have h : ((d.toNat : Int) % (2 ^ (8 * n) : Int)) = d.toNat :=
    Int.emod_eq_of_lt (by omega) (by exact_mod_cast d.isLt)
  rw [twos, BitVec.toInt_eq_toNat_bmod]
  have : ((2 ^ (8 * n) : Nat) : Int) = (2 ^ (8 * n) : Int) := by norm_cast
  rw [← this, Int.bmod_emod, this, h]
  simp

@[simp] theorem wI8_eq (d : BitVec 8) : wI8 d = [d] := by
  have := twos_toInt 1 d
  simp [wI8, leBytes, this]

theorem leBytes_two (v : BitVec 16) : leBytes 2 v.toNat = bytesLe16 v := by
  simp only [leBytes, bytesLe16, List.cons.injEq, and_true]
  constructor <;> apply BitVec.eq_of_toNat_eq <;> simp [BitVec.extractLsb'_toNat, Nat.shiftRight_eq_div_pow]

theorem leBytes_four (v : BitVec 32) : leBytes 4 v.toNat = bytesLe32 v := by
  simp only [leBytes, bytesLe32, List.cons.injEq, and_true, Nat.div_div_eq_div_mul]
  refine ⟨?_, ?_, ?_, ?_⟩ <;> apply BitVec.eq_of_toNat_eq <;>
    simp [BitVec.extractLsb'_toNat, Nat.shiftRight_eq_div_pow]

@[simp] theorem wU16_eq (v : BitVec 16) : wU16 v = bytesLe16 v := leBytes_two v

@[simp] theorem wU32_eq (v : BitVec 32) : wU32 v = bytesLe32 v := leBytes_four v

@[simp] theorem wI32_eq (d : BitVec 32) : wI32 d = bytesLe32 d := by
  have := twos_toInt 4 d
  rw [wI32, this, leBytes_four]

/-- R49, R51: the OR of the shifted fields is the fields side by side. -/
theorem rmaToken_eq (m : RegOrMemModifier) (g b : Reg) :
    rmaToken m g b = tokenBits (modField (modBits m)) g b := by
  cases m <;> revert g b <;> decide

theorem absToken_eq (g : Reg) : regCode g <<< 3 ||| 0x05#8 = tokenBits 0#2 g 5#3 := by revert g; decide

theorem registerToken_eq (g : Reg) : regCode g <<< 3 = tokenBits 0#2 g 0#3 := by revert g; decide

@[simp] theorem modField_tokenBits (mod : BitVec 2) (g b : Reg) : modField (tokenBits mod g b) = mod := by
  revert mod g b; decide

@[simp] theorem regField_tokenBits (mod : BitVec 2) (g b : Reg) : regField (tokenBits mod g b) = g := by
  revert mod g b; decide

@[simp] theorem rmField_tokenBits (mod : BitVec 2) (g b : Reg) : rmField (tokenBits mod g b) = b := by
  revert mod g b; decide

theorem tokenBits_fields (t : Byte) : tokenBits (modField t) (regField t) (rmField t) = t := by
  revert t; decide

theorem tokenBits_or (m m' : BitVec 2) (g g' b b' : Reg) :
    tokenBits m g b ||| tokenBits m' g' b' = tokenBits (m ||| m') (g ||| g') (b ||| b') := by
  apply BitVec.eq_of_getLsbD_eq
  intro i hi
  simp only [tokenBits, BitVec.getLsbD_or, BitVec.getLsbD_append]
  split
  · rfl
  · split <;> rfl

@[simp] theorem bytesLe16_length (v : BitVec 16) : (bytesLe16 v).length = 2 := rfl

@[simp] theorem bytesLe32_length (v : BitVec 32) : (bytesLe32 v).length = 4 := rfl

end Sys2Proof.Machine
end

