-- ==== Sys2Proof/Laws/State.lean ====
section
/-! SUPPORT. One lemma per field per operation over State: what each operation of Machine/Ops.lean leaves in each
field, so that no proof unfolds a record update. -/

namespace Sys2Proof.Machine

@[simp] theorem State.append_sink (s : State) (bs : List Byte) : (s.append bs).sink = s.sink ++ bs := rfl
@[simp] theorem State.append_inFlight (s : State) (bs : List Byte) : (s.append bs).inFlight = s.inFlight := rfl
@[simp] theorem State.append_result (s : State) (bs : List Byte) : (s.append bs).result = s.result := rfl
@[simp] theorem State.append_refusalMark (s : State) (bs : List Byte) :
    (s.append bs).refusalMark = s.refusalMark := rfl
@[simp] theorem State.append_inbox (s : State) (bs : List Byte) : (s.append bs).inbox = s.inbox := rfl

@[simp] theorem State.mapFlight_sink (s : State) (f : Transient → Transient) : (s.mapFlight f).sink = s.sink := rfl
@[simp] theorem State.mapFlight_inFlight (s : State) (f : Transient → Transient) :
    (s.mapFlight f).inFlight = s.inFlight.map f := rfl
@[simp] theorem State.mapFlight_result (s : State) (f : Transient → Transient) :
    (s.mapFlight f).result = s.result := rfl
@[simp] theorem State.mapFlight_refusalMark (s : State) (f : Transient → Transient) :
    (s.mapFlight f).refusalMark = s.refusalMark := rfl
@[simp] theorem State.mapFlight_inbox (s : State) (f : Transient → Transient) : (s.mapFlight f).inbox = s.inbox := rfl

@[simp] theorem State.advance_sink (s : State) : s.advance.sink = s.sink := rfl
@[simp] theorem State.advance_inFlight (s : State) :
    s.advance.inFlight = s.inFlight.map fun t => { t with phase := t.phase.next, valueDone := false } := rfl
@[simp] theorem State.advance_result (s : State) : s.advance.result = s.result := rfl
@[simp] theorem State.advance_refusalMark (s : State) : s.advance.refusalMark = s.refusalMark := rfl
@[simp] theorem State.advance_inbox (s : State) : s.advance.inbox = s.inbox := rfl

@[simp] theorem State.setIndex_sink (s : State) (i : Nat) : (s.setIndex i).sink = s.sink := rfl
@[simp] theorem State.setIndex_inFlight (s : State) (i : Nat) :
    (s.setIndex i).inFlight = s.inFlight.map fun t => { t with index := some i } := rfl
@[simp] theorem State.setIndex_result (s : State) (i : Nat) : (s.setIndex i).result = s.result := rfl
@[simp] theorem State.setIndex_refusalMark (s : State) (i : Nat) : (s.setIndex i).refusalMark = s.refusalMark := rfl
@[simp] theorem State.setIndex_inbox (s : State) (i : Nat) : (s.setIndex i).inbox = s.inbox := rfl

@[simp] theorem State.orToken_sink (s : State) (p : Byte) : (s.orToken p).sink = s.sink := rfl
@[simp] theorem State.orToken_inFlight (s : State) (p : Byte) :
    (s.orToken p).inFlight = s.inFlight.map fun t => { t with tok := some (s.tokSoFar ||| p) } := rfl
@[simp] theorem State.orToken_result (s : State) (p : Byte) : (s.orToken p).result = s.result := rfl
@[simp] theorem State.orToken_refusalMark (s : State) (p : Byte) : (s.orToken p).refusalMark = s.refusalMark := rfl
@[simp] theorem State.orToken_inbox (s : State) (p : Byte) : (s.orToken p).inbox = s.inbox := rfl

@[simp] theorem State.putToken_sink (s : State) (p : Byte) :
    (s.putToken p).sink = s.sink ++ wU8 (s.tokSoFar ||| p) := rfl
@[simp] theorem State.putToken_inFlight (s : State) (p : Byte) :
    (s.putToken p).inFlight = s.inFlight.map fun t =>
      { t with phase := t.phase.next, tok := some (s.tokSoFar ||| p), valueDone := false } := by
  cases h : s.inFlight <;> simp [State.putToken, h]
@[simp] theorem State.putToken_result (s : State) (p : Byte) : (s.putToken p).result = s.result := rfl
@[simp] theorem State.putToken_refusalMark (s : State) (p : Byte) : (s.putToken p).refusalMark = s.refusalMark := rfl
@[simp] theorem State.putToken_inbox (s : State) (p : Byte) : (s.putToken p).inbox = s.inbox := rfl

@[simp] theorem State.valueWritten_sink (s : State) : s.valueWritten.sink = s.sink := rfl
@[simp] theorem State.valueWritten_inFlight (s : State) :
    s.valueWritten.inFlight = s.inFlight.map fun t => { t with valueDone := true } := rfl
@[simp] theorem State.valueWritten_result (s : State) : s.valueWritten.result = s.result := rfl
@[simp] theorem State.valueWritten_refusalMark (s : State) : s.valueWritten.refusalMark = s.refusalMark := rfl
@[simp] theorem State.valueWritten_inbox (s : State) : s.valueWritten.inbox = s.inbox := rfl

@[simp] theorem State.begin_sink (s : State) (r : Request) : (s.begin r).sink = s.sink := rfl
@[simp] theorem State.begin_inFlight (s : State) (r : Request) :
    (s.begin r).inFlight = some ⟨r, .opc, none, none, false⟩ := rfl
@[simp] theorem State.begin_result (s : State) (r : Request) : (s.begin r).result = s.result := rfl
@[simp] theorem State.begin_refusalMark (s : State) (r : Request) : (s.begin r).refusalMark = s.refusalMark := rfl
@[simp] theorem State.begin_inbox (s : State) (r : Request) : (s.begin r).inbox = s.inbox := rfl

@[simp] theorem State.complete_sink (s : State) : s.complete.sink = s.sink := rfl
@[simp] theorem State.complete_inFlight (s : State) : s.complete.inFlight = none := rfl
@[simp] theorem State.complete_result (s : State) : s.complete.result = some .ok := rfl
@[simp] theorem State.complete_refusalMark (s : State) : s.complete.refusalMark = s.refusalMark := rfl
@[simp] theorem State.complete_inbox (s : State) : s.complete.inbox = s.inbox := rfl

@[simp] theorem State.raise_sink (s : State) (k : Failure) : (s.raise k).sink = s.sink := rfl
@[simp] theorem State.raise_inFlight (s : State) (k : Failure) : (s.raise k).inFlight = none := rfl
@[simp] theorem State.raise_result (s : State) (k : Failure) : (s.raise k).result = some (.fault k) := rfl
@[simp] theorem State.raise_refusalMark (s : State) (k : Failure) : (s.raise k).refusalMark = s.refusalMark := rfl
@[simp] theorem State.raise_inbox (s : State) (k : Failure) : (s.raise k).inbox = s.inbox := rfl

@[simp] theorem State.refuse_sink (s : State) (why : RefusalReason) : (s.refuse why).sink = s.sink := rfl
@[simp] theorem State.refuse_inFlight (s : State) (why : RefusalReason) : (s.refuse why).inFlight = s.inFlight := rfl
@[simp] theorem State.refuse_result (s : State) (why : RefusalReason) :
    (s.refuse why).result = some (.refused why) := rfl
@[simp] theorem State.refuse_refusalMark (s : State) (why : RefusalReason) : (s.refuse why).refusalMark = true := rfl
@[simp] theorem State.refuse_inbox (s : State) (why : RefusalReason) : (s.refuse why).inbox = s.inbox := rfl

end Sys2Proof.Machine
end

