-- ==== Sys2Proof/Laws/Memory.lean ====
section
/-! SUPPORT. The sink as memory: its cell view is canonical whatever it holds, and an append keeps every earlier byte and
puts its own at the append position (10_state.md R25, R26). -/

namespace Sys2Proof.Machine

/-- Every sink is in canonical form, so every operation keeps it and the reset state has it. -/
theorem sinkCells_wf (bs : List Byte) : Memory.wf (sinkCells bs) := by
  unfold Memory.wf sinkCells
  rw [List.pairwise_map, List.pairwise_iff_getElem]
  intro i j hi hj hij
  simpa using hij

theorem reset_memory_wf : Memory.wf (sinkCells State.reset.sink) := sinkCells_wf _

@[simp] theorem State.append_pos (s : State) (bs : List Byte) : (s.append bs).pos = s.pos + bs.length := by
  simp [State.pos]

/-- An append leaves every earlier position as it was. -/
theorem State.byteAt_append_before (s : State) (bs : List Byte) {p : Nat} (h : p < s.pos) :
    (s.append bs).byteAt p = s.byteAt p := by
  simp only [State.byteAt, State.append_sink]
  exact List.getElem?_append_left h

/-- An append puts its bytes at the append position. -/
theorem State.byteAt_append_at (s : State) (bs : List Byte) (k : Nat) :
    (s.append bs).byteAt (s.pos + k) = bs[k]? := by
  simp only [State.byteAt, State.append_sink, State.pos]
  rw [List.getElem?_append_right (Nat.le_add_right _ _), Nat.add_sub_cancel_left]

end Sys2Proof.Machine
end

