-- ==== Sys2Proof/Laws/PerInstr.lean ====
section
/-! SUPPORT. Facts about every instruction as syntax, one lemma per constructor. Family `Length`: a well-formed
instruction's bytes number at most 18 (30_encoding.md R47). -/

namespace Sys2Proof.Laws.Length

open Sys2Proof.Machine

/-- R47: "the longest is 18 bytes". -/
def Statement (i : Instr) : Prop := i.wf = true → (Sys2Proof.encode i).length ≤ 18

theorem encodeNumber_length_le (z : OperandSize) (n : Nat) : (encodeNumber z n).length ≤ 4 := by
  cases z <;> simp [encodeNumber]

theorem encodeValue_length_le (m : AddressingMethod) (z : OperandSize) (v : Value) :
    (encodeValue m z v).length ≤ 4 := by
  cases m <;> cases v <;> simp [encodeValue, encodeNumber_length_le]

theorem encodeCorrection_length_le (c : Correction) : (encodeCorrection c).length ≤ 4 := by
  cases c <;> simp [encodeCorrection]

theorem encodeSlot_length_le (m : AddressingMethod) (z : OperandSize) (op : Option Operand) :
    (encodeSlot m z op).length ≤ 8 := by
  rcases op with _ | o
  · simp [encodeSlot]
  · have h1 := encodeValue_length_le m z o.value
    have h2 := encodeCorrection_length_le o.corr
    simp only [encodeSlot, List.length_append]
    omega

theorem encodeRequest_length_le {r : Request} (h : r.wf = true) : (encodeRequest r).length ≤ 18 := by
  have hb : r.opcode.bytes.length = 1 := by
    simp [Request.wf, OpCode.wf, OpCode.singleByte] at h
    exact h.1.1.1.1.1
  unfold encodeRequest
  split
  · omega
  · rename_i v _
    have h1 := encodeSlot_length_le v.method1 v.size1 r.eff1
    have h2 := encodeSlot_length_le v.method2 v.size2 r.eff2
    have ht : (if r.opcode.hasRegisterToken = true then [encodeToken v r.eff1 r.eff2] else []).length ≤ 1 := by
      split <;> simp
    simp only [List.length_append]
    omega

theorem encode (r : Request) : Statement (.encode r) := fun h => encodeRequest_length_le h
theorem opc (b : Byte) : Statement (.opc b) := fun _ => by simp [Sys2Proof.encode]
theorem tokRegonly (g b : Reg) : Statement (.tokRegonly g b) := fun _ => by simp [Sys2Proof.encode]
theorem tokRegptr (g b : Reg) : Statement (.tokRegptr g b) := fun _ => by simp [Sys2Proof.encode]
theorem tokDisp8 (g b : Reg) : Statement (.tokDisp8 g b) := fun _ => by simp [Sys2Proof.encode]
theorem tokDisp32 (g b : Reg) : Statement (.tokDisp32 g b) := fun _ => by simp [Sys2Proof.encode]
theorem tokAbs (g : Reg) : Statement (.tokAbs g) := fun _ => by simp [Sys2Proof.encode]
theorem tokReg (g : Reg) : Statement (.tokReg g) := fun _ => by simp [Sys2Proof.encode]
theorem tokNone : Statement .tokNone := fun _ => by simp [Sys2Proof.encode]
theorem imm8 (v : BitVec 8) : Statement (.imm8 v) := fun _ => by simp [Sys2Proof.encode]
theorem imm16 (v : BitVec 16) : Statement (.imm16 v) := fun _ => by simp [Sys2Proof.encode]
theorem imm32 (v : BitVec 32) : Statement (.imm32 v) := fun _ => by simp [Sys2Proof.encode]
theorem addr32 (a : Addr32) : Statement (.addr32 a) := fun _ => by simp [Sys2Proof.encode]
theorem disp8 (d : BitVec 8) : Statement (.disp8 d) := fun _ => by simp [Sys2Proof.encode]
theorem disp32 (d : BitVec 32) : Statement (.disp32 d) := fun _ => by simp [Sys2Proof.encode]
theorem novalueRel : Statement .novalueRel := fun _ => by simp [Sys2Proof.encode]
theorem novalue : Statement .novalue := fun _ => by simp [Sys2Proof.encode]
theorem add (o1 o2 : Option Operand) : Statement (.add o1 o2) := fun h => encodeRequest_length_le h

end Sys2Proof.Laws.Length
end

