-- ==== Sys2Proof/Laws/Requests.lean ====
section
/-! SUPPORT. Everything one request can do (42_encoder.md R81, R82): the lemmas that say how `admission`, `runPhases`
and `transact` end, to be cited instead of unfolding them. -/

namespace Sys2Proof.Machine

/-- A busy sink is the first reason (R81). -/
@[simp] theorem admission_busy (r : Request) : admission true r = some .sharedSink := rfl

/-- On an idle sink a request is admitted exactly when its opcode record is well-formed (R22). -/
theorem admission_idle_iff (r : Request) : admission false r = none ↔ r.opcode.wf = true := by
  simp [admission, OpCode.wf, OpCode.singleByte, OpCode.parallel]
  grind

/-- On an idle sink a refusal is one of the two of R22, in R81's order. -/
theorem admission_idle_cases (r : Request) :
    admission false r = none ∨ (admission false r = some .multiByteOpcode ∧ r.opcode.bytes.length ≠ 1) ∨
      (admission false r = some .malformedMetadata ∧ r.opcode.bytes.length = 1) := by
  unfold admission
  split
  · contradiction
  · split
    · exact .inr (.inl ⟨rfl, ‹_›⟩)
    · split
      · exact .inr (.inr ⟨rfl, not_not.mp ‹_›⟩)
      · exact .inl rfl

/-- How the phases of a request can end (R82, R97), in their order. -/
theorem runPhases_cases (r : Request) :
    (r.variant = none ∧ runPhases r = (writeOpcode r.opcode, some .unsupportedMnemonic)) ∨
    ∃ v, r.variant = some v ∧
      ((∃ k, writeToken r.opcode.hasRegisterToken v r.eff1 r.eff2 = .error k ∧
          runPhases r = (writeOpcode r.opcode, some k)) ∨
        ∃ tok, writeToken r.opcode.hasRegisterToken v r.eff1 r.eff2 = .ok tok ∧
          ((∃ k, writeSlot v.method1 v.size1 r.eff1 = .error k ∧
              runPhases r = (writeOpcode r.opcode ++ tok, some k)) ∨
            ∃ b1, writeSlot v.method1 v.size1 r.eff1 = .ok b1 ∧
              ((∃ k, writeSlot v.method2 v.size2 r.eff2 = .error k ∧
                  runPhases r = (writeOpcode r.opcode ++ tok ++ b1, some k)) ∨
                ∃ b2, writeSlot v.method2 v.size2 r.eff2 = .ok b2 ∧
                  runPhases r = (writeOpcode r.opcode ++ tok ++ b1 ++ b2, none)))) := by
  unfold runPhases
  rcases hv : r.variant with _ | v
  · exact .inl ⟨rfl, rfl⟩
  refine .inr ⟨v, rfl, ?_⟩
  rcases ht : writeToken r.opcode.hasRegisterToken v r.eff1 r.eff2 with k | tok
  · exact .inl ⟨k, rfl, by simp [ht]⟩
  refine .inr ⟨tok, rfl, ?_⟩
  rcases h1 : writeSlot v.method1 v.size1 r.eff1 with k | b1
  · exact .inl ⟨k, rfl, by simp [ht, h1]⟩
  refine .inr ⟨b1, rfl, ?_⟩
  rcases h2 : writeSlot v.method2 v.size2 r.eff2 with k | b2
  · exact .inl ⟨k, rfl, by simp [ht, h1, h2]⟩
  · exact .inr ⟨b2, rfl, by simp [ht, h1, h2]⟩

/-- What a transaction leaves: a refusal, or the phases' bytes with their result and the block idle (R88, R96, R99). -/
theorem transact_cases (r : Request) (s : State) :
    (∃ why, admission s.inFlight.isSome r = some why ∧ transact r s = s.refuse why) ∨
    (admission s.inFlight.isSome r = none ∧ (runPhases r).2 = none ∧
      transact r s = (s.append (runPhases r).1).complete) ∨
    (∃ k, admission s.inFlight.isSome r = none ∧ (runPhases r).2 = some k ∧
      transact r s = (s.append (runPhases r).1).raise k) := by
  unfold transact
  rcases ha : admission s.inFlight.isSome r with _ | why
  · rcases hp : runPhases r with ⟨bs, _ | k⟩
    · exact .inr (.inl ⟨rfl, rfl, rfl⟩)
    · exact .inr (.inr ⟨k, rfl, rfl, rfl⟩)
  · exact .inl ⟨why, rfl, rfl⟩

/-- An admitted request finds the block idle (R81). -/
theorem inFlight_of_admitted {s : State} {r : Request} (h : admission s.inFlight.isSome r = none) :
    s.inFlight = none := by
  rcases hs : s.inFlight with _ | t
  · rfl
  · simp [hs] at h

/-- R25: a transaction only appends. -/
theorem transact_sink (r : Request) (s : State) : ∃ bs, (transact r s).sink = s.sink ++ bs := by
  rcases transact_cases r s with ⟨_, _, h⟩ | ⟨_, _, h⟩ | ⟨_, _, _, h⟩ <;> rw [h]
  · exact ⟨[], by simp⟩
  · exact ⟨_, rfl⟩
  · exact ⟨_, rfl⟩

/-- A transaction leaves the caller's requests alone. -/
@[simp] theorem transact_inbox (r : Request) (s : State) : (transact r s).inbox = s.inbox := by
  rcases transact_cases r s with ⟨_, _, h⟩ | ⟨_, _, h⟩ | ⟨_, _, _, h⟩ <;> rw [h] <;> rfl

/-- A transaction leaves the request in progress, or the idle block, as it was (R99, R100). -/
@[simp] theorem transact_inFlight (r : Request) (s : State) : (transact r s).inFlight = s.inFlight := by
  rcases transact_cases r s with ⟨_, _, h⟩ | ⟨ha, _, h⟩ | ⟨_, ha, _, h⟩ <;> rw [h]
  · rfl
  · rw [inFlight_of_admitted ha]; rfl
  · rw [inFlight_of_admitted ha]; rfl

/-- ENCODE always answers a next state. -/
theorem execEncode_next (r : Request) (s : State) : execEncode r s = .next (transact r s) := rfl

/-- ADD always answers a next state: that of the request it stands for. -/
theorem execAdd_next (o1 o2 : Option Operand) (s : State) : execAdd o1 o2 s = .next (transact (addRequest o1 o2) s) :=
  rfl

end Sys2Proof.Machine
end

