-- ==== Sys2Proof/Laws/Step.lean ====
section
/-! SUPPORT. Everything one step can do, and that a request selects the instruction with its own meaning. -/

namespace Sys2Proof.Machine

/-- The instruction a request selects does what ENCODE of it does (R82). -/
theorem exec_instrOf (r : Request) (s : State) : exec (instrOf r) s = exec (.encode r) s := by
  unfold instrOf
  split
  · rename_i h
    obtain ⟨ho, hm⟩ := h
    have : addRequest r.op1 r.op2 = r := by cases r; simp_all [addRequest]
    show execAdd r.op1 r.op2 s = execEncode r s
    unfold execAdd execEncode
    rw [this]
  · rfl

/-- What a step runs when the block is idle. -/
theorem step_idle {s : State} (hf : s.inFlight = none) :
    (s.inbox = [] ∧ step s = .next s) ∨
    ∃ a rest, s.inbox = a :: rest ∧
      ((a.phased = true ∧ admission false a.request = none ∧
          step s = .next (({ s with inbox := rest } : State).begin a.request)) ∨
        step s = exec (instrOf a.request) { s with inbox := rest }) := by
  rcases hb : s.inbox with _ | ⟨a, rest⟩
  · exact .inl ⟨rfl, by simp [step, nextAction, hf, hb]⟩
  refine .inr ⟨a, rest, rfl, ?_⟩
  by_cases h : a.phased = true ∧ admission false a.request = none
  · exact .inl ⟨h.1, h.2, by simp [step, nextAction, issue, hf, hb, h.1, h.2]⟩
  · refine .inr ?_
    have : (a.phased && (admission false a.request).isNone) = false := by
      rw [Bool.eq_false_iff]
      simpa using h
    simp [step, nextAction, issue, hf, hb, this]

/-- What a step runs while a request is in progress. -/
theorem step_busy {s : State} {t : Transient} (hf : s.inFlight = some t) :
    (∃ a rest, s.inbox = a :: rest ∧ a.during = some t.phase ∧
      step s = exec (instrOf a.request) { s with inbox := rest }) ∨
    (nextAction s = phaseAction t s) := by
  rcases hb : s.inbox with _ | ⟨a, rest⟩
  · exact .inr (by simp [nextAction, hf, hb])
  by_cases h : a.during = some t.phase
  · exact .inl ⟨a, rest, rfl, h, by simp [step, nextAction, hf, hb, h]⟩
  · exact .inr (by simp [nextAction, hf, hb, h])

theorem step_of_run {s s' : State} {i : Instr} (h : nextAction s = .run i s') : step s = exec i s' := by
  simp [step, h]

theorem step_of_goto {s s' : State} (h : nextAction s = .goto s') : step s = .next s' := by
  simp [step, h]

theorem step_of_stop {s : State} {f : Fault} (h : nextAction s = .stop f) : step s = .fault f := by
  simp [step, h]

end Sys2Proof.Machine
end

