-- ==== Sys2Proof/Tests/Slice0.lean ====
section
/-! SUPPORT. The model's own tests: the well-formedness checks refuse ill-formed terms, words written out from the
spec's bit patterns decode, one step of each instruction gives the bytes of 95_test_vectors.md, and every statement
with hypotheses has a witness that meets them. Each test's comment names where its expected result comes from. -/

namespace Sys2Proof.Tests

open Sys2Proof Sys2Proof.Machine

/-! ### Builders -/

/-- A plain register operand, `rC` of R60. -/
def reg (r : Reg) : Operand := ⟨.reg r, .noCorr, .normal⟩

/-- A dereferenced register operand, `[rC]`. -/
def ptr (r : Reg) : Operand := ⟨.reg r, .noCorr, .dereferenced⟩

/-- `i(n)`. -/
def imm (n : Imm64) : Operand := ⟨.imm n, .noCorr, .normal⟩

/-- `a(n)`. -/
def addr (n : Addr32) : Operand := ⟨.addr n, .noCorr, .normal⟩

/-- `ENC b X [tok] s1=m1/z1 s2=m2/z2 : o1, o2` of R60, one variant. -/
def enc (b : Byte) (tok : Bool) (m1 : AddressingMethod) (z1 : OperandSize) (m2 : AddressingMethod) (z2 : OperandSize)
    (o1 o2 : Option Operand) : Request :=
  ⟨⟨[b], [⟨9⟩], [m1], [z1], [m2], [z2], tok⟩, ⟨9⟩, o1, o2⟩

/-- An idle block whose sink holds CC. -/
def start : State := State.launch [0xCC#8]

/-- The state an outcome goes on in. -/
def after (o : Host.Outcome State Fault Refusal) : Option State :=
  match o with
  | .next s => some s
  | .fault _ => none
  | .refused _ => none

/-- The sink and the result an outcome leaves. -/
def ending (o : Host.Outcome State Fault Refusal) : Option (List Byte × Option RequestResult) :=
  (after o).map fun s => (s.sink, s.result)

/-- ENCODE of E15 of 95_test_vectors.md. -/
def e15 : Request :=
  enc 0x81#8 true .registerOrMemoryAddress .dword .immediateData .dword
    (some ⟨.reg 3#3, .long 0x12345678#32, .normal⟩) (some (imm 0x11223344#64))

/-- A request of the longest kind: an address with a long correction, then a Dword with one (R47: 18 bytes). -/
def longest : Request :=
  enc 0xAA#8 true .registerOrMemoryAddress .dword .immediateData .dword
    (some ⟨.addr 0xFFFFFFFF#32, .long 0xFFFFFFFF#32, .normal⟩) (some ⟨.imm 0xFFFFFFFF#64, .long 0x80000000#32, .normal⟩)

/-- E16: a size tag that no numeric write takes, in slot 2. -/
def e16 : Request :=
  enc 0x81#8 true .registerOrMemoryAddress .dword .immediateData (.other ⟨0⟩) (some (addr 0x1000#32)) (some (imm 1#64))

/-- E18: two opcode bytes. -/
def e18 : Request := { addRequest (some (reg 0#3)) (some (reg 1#3)) with opcode := { addOpCode with bytes := [0x0F#8, 0xAF#8] } }

/-- E19: one list longer than the others. -/
def e19 : Request :=
  { addRequest (some (reg 0#3)) (some (reg 3#3)) with
    opcode := { addOpCode with methods1 := [.registerOrMemoryAddress, .registerOrMemoryAddress] } }

/-- E6: a mnemonic the opcode does not declare. -/
def e6 : Request := { addRequest (some (reg 0#3)) (some (reg 3#3)) with mnemonic := ⟨1⟩ }

/-! ### Well-formedness: one ill-formed term for each check -/

theorem test_wf_accepts : (Instr.encode e15).wf = true ∧ (Instr.add (some (reg 0#3)) (some (reg 3#3))).wf = true := by
  decide
theorem test_wf_refuses_two_opcode_bytes : e18.opcode.singleByte = false ∧ (Instr.encode e18).wf = false := by decide
theorem test_wf_refuses_unequal_lists : e19.opcode.parallel = false ∧ (Instr.encode e19).wf = false := by decide
theorem test_wf_refuses_undeclared_mnemonic : e6.declared = false ∧ (Instr.encode e6).wf = false := by decide
theorem test_wf_refuses_second_operand_alone :
    (addRequest none (some (reg 3#3))).op2NeedsOp1 = false ∧ (Instr.add none (some (reg 3#3))).wf = false := by decide
theorem test_wf_refuses_slot1 :
    (addRequest (some (imm 5#64)) none).slot1Ok = false ∧ (Instr.add (some (imm 5#64)) none).wf = false := by decide
theorem test_wf_refuses_slot2 : e16.slot2Ok = false ∧ (Instr.encode e16).wf = false := by decide
theorem test_collision_refused :
    (enc 0xAB#8 true .register .dword .register .dword (some (reg 1#3)) (some (reg 2#3))).collisionFree = false := by
  decide

/-! ### Decoding: words from the patterns of R49, R53, R54 and the table -/

theorem test_decode_opc : decode .opcode [0b10010000#8] = .ok (.opc 0x90#8) := by decide
theorem test_decode_tokRegonly : decode .tokenRma [0b11_011_000#8] = .ok (.tokRegonly 3#3 0#3) := by decide
theorem test_decode_tokRegptr : decode .tokenRma [0b00_011_001#8] = .ok (.tokRegptr 3#3 1#3) := by decide
theorem test_decode_tokDisp8 : decode .tokenRma [0b01_011_101#8] = .ok (.tokDisp8 3#3 5#3) := by decide
theorem test_decode_tokDisp32 : decode .tokenRma [0b10_010_110#8] = .ok (.tokDisp32 2#3 6#3) := by decide
theorem test_decode_tokAbs : decode .tokenAbs [0b00_001_101#8] = .ok (.tokAbs 1#3) := by decide
theorem test_decode_tokReg : decode .tokenReg [0b00_110_000#8] = .ok (.tokReg 6#3) := by decide
theorem test_decode_tokNone : decode .tokenNone [0b00000000#8] = .ok .tokNone := by decide
theorem test_decode_imm8 : decode .imm8 [0x80#8] = .ok (.imm8 0x80#8) := by decide
theorem test_decode_imm16 : decode .imm16 [0x34#8, 0x12#8] = .ok (.imm16 0x1234#16) := by decide
theorem test_decode_imm32 : decode .imm32 [0x44#8, 0x33#8, 0x22#8, 0x11#8] = .ok (.imm32 0x11223344#32) := by decide
theorem test_decode_addr32 : decode .addr32 [0x00#8, 0x10#8, 0x40#8, 0x00#8] = .ok (.addr32 0x00401000#32) := by decide
theorem test_decode_disp8 : decode .disp8 [0xFF#8] = .ok (.disp8 (BitVec.ofInt 8 (-1))) := by decide
theorem test_decode_disp32 :
    decode .disp32 [0xFE#8, 0xFF#8, 0xFF#8, 0xFF#8] = .ok (.disp32 (BitVec.ofInt 32 (-2))) := by decide
theorem test_decode_novalueRel : decode .novalueRel [] = .ok .novalueRel := by decide
theorem test_decode_novalue : decode .novalue [] = .ok .novalue := by decide
/-- W1: 01 D8. -/
theorem test_decode_add :
    decode (.add (some (reg 0#3)) (some (reg 0#3))) [0x01#8, 0b11_011_000#8] =
      .ok (.add (some (reg 0#3)) (some (reg 3#3))) := by decide
/-- E15: 81 83 78 56 34 12 44 33 22 11. -/
theorem test_decode_encode :
    decode (.request e15.template)
      [0x81#8, 0x83#8, 0x78#8, 0x56#8, 0x34#8, 0x12#8, 0x44#8, 0x33#8, 0x22#8, 0x11#8] = .ok (.encode e15) := by decide
/-- A fixed bit that differs, a byte too many, a byte too few. -/
theorem test_decode_rejects_by_name :
    decode .tokenAbs [0b01_001_101#8] = .error .fixedBits ∧ decode .imm8 [1#8, 2#8] = .error .length ∧
      decode (.request e15.template) [0x81#8, 0x83#8] = .error .length ∧
      decode (.add (some (reg 0#3)) (some (reg 0#3))) [0x02#8, 0xD8#8] = .error .fixedBits := by decide
/-- The table's words: 11rrrbbb, 00rrr101, 01 and a token. -/
theorem test_table_words :
    decodeTableWord 8 0xC0 = some (.tokRegonly 0#3 0#3) ∧ decodeTableWord 8 0x0D = some (.tokAbs 1#3) ∧
      decodeTableWord 16 0xD801 = some (.add (some (reg 0#3)) (some (reg 3#3))) := by decide

/-! ### One step of each instruction -/

/-- E16: the prefix of a request that fails in OP2 stays. -/
theorem test_encode_fails_in_op2 :
    ending (exec (.encode e16) start) =
      some ([0xCC#8, 0x81#8, 0x05#8, 0x00#8, 0x10#8, 0x00#8, 0x00#8], some (.fault .unsupportedSize)) := by decide
/-- E15. -/
theorem test_encode_layout :
    ending (exec (.encode e15) start) =
      some ([0xCC#8, 0x81#8, 0x83#8, 0x78#8, 0x56#8, 0x34#8, 0x12#8, 0x44#8, 0x33#8, 0x22#8, 0x11#8], some .ok) := by
  decide
/-- W2. -/
theorem test_add_short_correction :
    ending (exec (.add (some ⟨.reg 5#3, .short (BitVec.ofInt 8 (-1)), .dereferenced⟩) (some (reg 3#3))) start) =
      some ([0xCC#8, 0x01#8, 0x5D#8, 0xFF#8], some .ok) := by decide
/-- E30: slot 1's failure is the one reported. -/
theorem test_add_first_slot_fails :
    ending (exec (.add (some (imm 1#64)) (some (addr 1#32))) start) =
      some ([0xCC#8, 0x01#8], some (.fault .invalidOperand)) := by decide

/-- The sink after one step on a state where the row is placed. -/
def stepSink (i : Instr) : Option (List Byte) := (after (step (start.place i))).map State.sink

/-- R83. -/
theorem test_opc : stepSink (.opc 0x8B#8) = some [0xCC#8, 0x8B#8] := by decide
/-- Table 2.3, RMA c = 0 with reg field 3. -/
theorem test_tokRegonly : stepSink (.tokRegonly 3#3 0#3) = some [0xCC#8, 0xD8#8] := by decide
/-- E3. -/
theorem test_tokRegptr : stepSink (.tokRegptr 3#3 0#3) = some [0xCC#8, 0x18#8] := by decide
/-- W2. -/
theorem test_tokDisp8 : stepSink (.tokDisp8 3#3 5#3) = some [0xCC#8, 0x5D#8] := by decide
/-- W6. -/
theorem test_tokDisp32 : stepSink (.tokDisp32 2#3 6#3) = some [0xCC#8, 0x96#8] := by decide
/-- E5. -/
theorem test_tokAbs : stepSink (.tokAbs 1#3) = some [0xCC#8, 0x0D#8] := by decide
/-- Table 2.3, `Register` c = 7. -/
theorem test_tokReg : stepSink (.tokReg 7#3) = some [0xCC#8, 0x38#8] := by decide
/-- R68: with an RMA slot to come nothing is written yet. -/
theorem test_tokReg_waits_for_rma :
    (after (exec (.tokReg 3#3) (start.begin (addRequest (some (reg 0#3)) (some (reg 3#3)))))).map
      (fun s => (s.sink, s.tokSoFar)) = some ([0xCC#8], 0x18#8) := by decide
/-- E17. -/
theorem test_tokNone : stepSink .tokNone = some [0xCC#8, 0x00#8] := by decide
/-- E10. -/
theorem test_imm8 : stepSink (.imm8 0x80#8) = some [0xCC#8, 0x80#8] := by decide
/-- W3. -/
theorem test_imm16 : stepSink (.imm16 0x1234#16) = some [0xCC#8, 0x34#8, 0x12#8] := by decide
/-- W7. -/
theorem test_imm32 : stepSink (.imm32 0x11223344#32) = some [0xCC#8, 0x44#8, 0x33#8, 0x22#8, 0x11#8] := by decide
/-- Table 2.5. -/
theorem test_addr32 : stepSink (.addr32 0x00401000#32) = some [0xCC#8, 0x00#8, 0x10#8, 0x40#8, 0x00#8] := by decide
/-- Table 2.6, Short(-128). -/
theorem test_disp8 : stepSink (.disp8 (BitVec.ofInt 8 (-128))) = some [0xCC#8, 0x80#8] := by decide
/-- Table 2.6, Long(-2^31). -/
theorem test_disp32 :
    stepSink (.disp32 (BitVec.ofInt 32 (-2147483648))) = some [0xCC#8, 0x00#8, 0x00#8, 0x00#8, 0x80#8] := by decide
/-- R75, R76: no value bytes. -/
theorem test_novalue : stepSink .novalue = some [0xCC#8] ∧ stepSink .novalueRel = some [0xCC#8] := by decide
/-- A table word placed on the reset state is what the next step runs (E1 with zero codes). -/
theorem test_withFetchWord :
    ending (step (State.reset.withFetchWord 8 0x01)) = some ([0x01#8, 0x00#8], some .ok) ∧
      (after (step (State.reset.withFetchWord 8 0xC0))).map State.sink = some [0xC0#8] := by decide

/-! ### Witnesses: a state and operands that meet each statement's hypotheses -/

/-- A block in phase TOKEN of `addRequest r0, r3`, nothing contributed yet. -/
def inToken : Transient := ⟨addRequest (some (reg 0#3)) (some (reg 3#3)), .token, some 0, none, false⟩

theorem witness_RmaSlotFillsTheModAndRmFields :
    determineModifier (reg 7#3) = .ok .registerOnly ∧ determineModifier (addr 0#32) = .ok .registerPointer ∧
      tokenPart .registerOrMemoryAddress .dword (reg 7#3) = .ok 0xC7#8 := by decide

theorem witness_OtherMethodsNeverReachTheResolver :
    AddressingMethod.immediateData ≠ .register ∧ AddressingMethod.immediateData ≠ .registerOrMemoryAddress := by decide

theorem witness_TokenOrsTheSlotsInOrder :
    slotPart .register .dword (some (imm 1#64)) = .error .unsupportedAddressing ∧
      slotPart .registerOrMemoryAddress .dword (some (imm 1#64)) = .error .invalidOperand ∧
      slotPart .registerOrMemoryAddress .dword (some (reg 0#3)) = .ok 0xC0#8 ∧
      slotPart .register .dword (some (reg 3#3)) = .ok 0x18#8 ∧
      (⟨.register, .dword, .register, .dword⟩ : Variant).method1 = .register ∧
      (⟨.registerOrMemoryAddress, .byte, .registerOrMemoryAddress, .byte⟩ : Variant).method2 =
        .registerOrMemoryAddress := by decide

theorem witness_OpcRowAppendsTheOpcodeByte :
    start.inFlight = none ∧ e6.opcode.wf = true ∧ e6.opcode.bytes = [0x01#8] ∧ e15.opcode.wf = true := by decide

theorem witness_TokRegOrsItsCodeIntoTheToken :
    rmaPending { start with inFlight := some inToken } = true ∧ rmaPending (start.place (.tokReg 3#3)) = false := by
  decide

theorem witness_EmissionRowsAppendAndLeaveTheRest :
    placedRequest (.opc 0xFF#8) = none ∧ placedRequest (.tokReg 0#3) = none ∧ placedRequest .novalue = none := by decide

theorem witness_PairedRequestAppendsItsLayout :
    longest.opcode.wf = true ∧ longest.declared = true ∧ longest.slot1Ok = true ∧ longest.slot2Ok = true ∧
      (addRequest (some (ptr 5#3)) none).slot1Ok = true ∧ (addRequest (some (ptr 5#3)) none).slot2Ok = true ∧
      (addRequest none (some (reg 7#3))).slot2Ok = true ∧ start.inFlight = none := by decide

theorem witness_FailedRequestKeepsItsPrefix :
    e6.opcode.wf = true ∧ e6.declared = false ∧
      computeToken ⟨.registerOrMemoryAddress, .dword, .register, .dword⟩ (some (imm 5#64)) (some (reg 3#3)) =
        .error .invalidOperand ∧
      writeSlot .immediateData .byte (some (imm 0x100#64)) = .error .invalidOperand ∧
      e16.opcode.bytes = [0x81#8] ∧ e16.variant = some ⟨.registerOrMemoryAddress, .dword, .immediateData, .other ⟨0⟩⟩ ∧
      writeToken true ⟨.registerOrMemoryAddress, .dword, .immediateData, .other ⟨0⟩⟩ e16.eff1 e16.eff2 = .ok [0x05#8] ∧
      writeSlot .registerOrMemoryAddress .dword e16.eff1 = .ok [0x00#8, 0x10#8, 0x00#8, 0x00#8] ∧
      writeSlot .immediateData (.other ⟨0⟩) e16.eff2 = .error .unsupportedSize := by decide

theorem witness_UnsupportedMnemonicExactlyWhenUndeclared :
    (after (exec (.encode e6) start)).bind State.result = some (.fault .unsupportedMnemonic) ∧
      (after (step { start with inFlight := some ⟨e6, .lookup, none, none, false⟩ })).bind State.result =
        some (.fault .unsupportedMnemonic) := by decide

/-- E31: a `Register` slot 1 that holds an immediate, before a slot 2 that fails too. -/
def e31 : Request :=
  enc 0xAC#8 true .register .dword .registerOrMemoryAddress .dword (some (imm 1#64)) (some (imm 1#64))

/-- The result that one step leaves of a request in progress in the phase p, its index and token as given, on a block
with no result yet. -/
def stepResult (r : Request) (p : Phase) (tok : Option Byte) : Option RequestResult :=
  (after (step { start with inFlight := some ⟨r, p, some 0, tok, false⟩ })).bind State.result

/-- The state of `stepResult` is good. -/
def stepGood (r : Request) (p : Phase) (tok : Option Byte) : Bool :=
  ({ start with inFlight := some ⟨r, p, some 0, tok, false⟩ } : State).Good

theorem witness_UnsupportedAddressingNeedsARegisterSlot :
    e31.opcode.wf = true ∧ e31.opcode.hasRegisterToken = true ∧
      (∃ x, requestSlot1 e31 = some x ∧ notARegister x) ∧
      (after (exec (.encode e31) start)).bind State.result = some (.fault .unsupportedAddressing) ∧
      stepResult e31 .token none = some (.fault .unsupportedAddressing) ∧ start.result = none ∧
      stepResult (addRequest (some (reg 0#3)) (some (addr 5#32))) .token none =
        some (.fault .unsupportedAddressing) :=
  ⟨by decide, by decide, ⟨_, rfl, rfl, rfl⟩, by decide, by decide, by decide, by decide⟩

/-- R94(a): an immediate in an RMA slot of an opcode with a token. -/
def causeA : Request := enc 0x01#8 true .registerOrMemoryAddress .dword .none .dword (some (imm 5#64)) none

/-- R94(b): a register in a numeric slot, slot 1. -/
def causeB : Request := enc 0x66#8 false .immediateData .word .none .dword (some (reg 1#3)) none

/-- R94(c): 0x100 at `Byte`, slot 2. -/
def causeC : Request :=
  enc 0x6A#8 false .none .dword .immediateData .byte (some (reg 0#3)) (some (imm 0x100#64))

/-- R94(d): 2^32 in an RMA slot of an opcode without a token, slot 1. -/
def causeD : Request := enc 0xAF#8 false .registerOrMemoryAddress .byte .none .dword (some (imm 0x100000000#64)) none

theorem witness_InvalidOperandHasOneOfFourCauses :
    (after (exec (.encode causeA) start)).bind State.result = some (.fault .invalidOperand) ∧
      (after (exec (.encode causeB) start)).bind State.result = some (.fault .invalidOperand) ∧
      (after (exec (.encode causeC) start)).bind State.result = some (.fault .invalidOperand) ∧
      (after (exec (.encode causeD) start)).bind State.result = some (.fault .invalidOperand) := by decide

theorem witness_InvalidOperandHasOneOfFourCauses_phases :
    start.result = none ∧
      stepGood causeA .token none = true ∧ stepResult causeA .token none = some (.fault .invalidOperand) ∧
      stepGood causeB .op1 none = true ∧ stepResult causeB .op1 none = some (.fault .invalidOperand) ∧
      stepGood causeC .op2 none = true ∧ stepResult causeC .op2 none = some (.fault .invalidOperand) ∧
      stepGood causeD .op1 none = true ∧ stepResult causeD .op1 none = some (.fault .invalidOperand) := by decide

theorem witness_UnsupportedSizeNeedsANumericSlot :
    (after (exec (.encode e16) start)).bind State.result = some (.fault .unsupportedSize) ∧
      (after (step { start with inFlight := some ⟨e16, .op2, some 0, some 0x05#8, false⟩ })).bind State.result =
        some (.fault .unsupportedSize) ∧
      numericMethod .directAddress = true ∧ numericMethod .register = false := by decide

theorem witness_RequestSucceedsExactlyWhenPaired :
    e15.declared = true ∧ e15.slot1Ok = true ∧ e15.slot2Ok = true ∧ e16.declared = true ∧ e16.slot2Ok = false := by
  decide

theorem witness_InadmissibleRequestsAreRefused :
    ({ start with inFlight := some inToken } : State).inFlight ≠ none ∧ e18.opcode.bytes.length ≠ 1 ∧
      e19.opcode.bytes.length = 1 ∧ e19.opcode.parallel = false := by decide

theorem witness_RequestRowsAppendAndLeaveTheRest :
    placedRequest (.encode e15) ≠ none ∧ placedRequest (.add none none) ≠ none := by decide

/-- Two variants of which one is numeric, and a register in slot 2. -/
def mixed (g : Reg) : Request :=
  ⟨⟨[0x50#8], [⟨9⟩, ⟨8⟩], [.register, .immediateData], [.dword, .byte], [.registerOrMemoryAddress, .none],
    [.dword, .dword], false⟩, ⟨9⟩, some (reg 3#3), some (reg g)⟩

/-- R76, R111(d): the register is in no byte, in slot 2 too. -/
theorem witness_RegisterWithoutTokenIsEncodedNowhere :
    (mixed 5#3).opcode.hasRegisterToken = false ∧
      ending (exec (.encode (mixed 5#3)) start) = some ([0xCC#8, 0x50#8], some .ok) ∧
      ending (exec (.encode (mixed 2#3)) start) = some ([0xCC#8, 0x50#8], some .ok) := by decide

theorem witness_RegisterPairTokenIsRegisterOnly :
    addOpCode.wf = true ∧ addOpCode.bytes = [0x01#8] ∧ addOpCode.hasRegisterToken = true ∧
      (addRequest (some (reg 7#3)) (some (reg 7#3))).variant =
        some ⟨.registerOrMemoryAddress, .dword, .register, .dword⟩ ∧
      (enc 0x8B#8 true .register .dword .registerOrMemoryAddress .dword (some (reg 2#3)) (some (reg 5#3))).variant =
        some ⟨.register, .dword, .registerOrMemoryAddress, .dword⟩ := by decide

/-- An idle block for ADD in its register forms; E27's operands. -/
theorem witness_AddEncodesRegisterForms :
    start.inFlight = none ∧
      ending (exec (.add (some (ptr 5#3)) (some (reg 0#3))) start) = some ([0xCC#8, 0x01#8, 0x05#8], some .ok) := by
  decide

/-- An idle block for ADD with an address; E34's operands. -/
theorem witness_AddEncodesAddressWithFallbackToken :
    start.inFlight = none ∧
      ending (exec (.add (some ⟨.addr 0x10#32, .long (BitVec.ofInt 32 (-1)), .normal⟩) (some (reg 7#3))) start) =
        some ([0xCC#8, 0x01#8, 0x3D#8, 0x10#8, 0#8, 0#8, 0#8, 0xFF#8, 0xFF#8, 0xFF#8, 0xFF#8], some .ok) := by decide

/-- Two idle blocks that differ in everything a request does not read. -/
theorem witness_RequestOutcomeIsItsOwnFunction :
    start.inFlight = none ∧ (start.refuse .multiByteOpcode).inFlight = none ∧
      ending (exec (.encode e18) start) = some ([0xCC#8], some (.refused .multiByteOpcode)) := by decide

theorem witness_LookupFindsTheLeastIndex :
    firstIndex [⟨3⟩, ⟨1⟩, ⟨1⟩] ⟨1⟩ = some 1 ∧ firstIndex [] ⟨1⟩ = none := by decide

theorem witness_AddRejectsOperandsItsSlotsCannotHold :
    (∀ k, (reg 0#3).value ≠ .imm k) ∧ (∀ g, (addr 5#32).value ≠ .reg g) ∧ start.inFlight = none := by
  refine ⟨?_, ?_, rfl⟩ <;> intro _ h <;> cases h

/-- The two ends of R47: 1 byte and 18. -/
theorem witness_EncodingLengthFollowsTheMetadata :
    (after (exec (.encode longest) start)).map State.pos = some 19 ∧
      (after (exec (.encode (enc 0x50#8 false .register .dword .none .dword (some (reg 3#3)) none)) start)).map
        State.pos = some 2 := by decide

/-- Table 2.4, at the ends of the ranges. -/
theorem witness_NumericWriteChecksSizeVariantRange :
    writeNumber (.other ⟨0⟩) (.reg 1#3) = .error .unsupportedSize ∧ writeNumber .dword (.reg 1#3) = .error .invalidOperand ∧
      writeNumber .byte (.imm 0x100#64) = .error .invalidOperand ∧ writeNumber .byte (.imm 0xFF#64) = .ok [0xFF#8] ∧
      writeNumber .word (.addr 0xFFFF#32) = .ok [0xFF#8, 0xFF#8] ∧
      writeNumber .word (.addr 0x10000#32) = .error .invalidOperand := by decide

theorem witness_RmaValueIsFourBytesAtAnySize :
    (0xFFFFFFFF#64).toNat < 2 ^ 32 ∧ 2 ^ 32 ≤ (0x100000000#64).toNat := by decide

theorem witness_DwordImmediateReadsBack :
    (0xFFFFFFFF#64).toNat < 2 ^ 32 ∧ 2 ^ 32 ≤ (0x100000000#64).toNat ∧
      writeNumber .dword (.imm 0xFFFFFFFF#64) = .ok [0xFF#8, 0xFF#8, 0xFF#8, 0xFF#8] := by decide

theorem witness_StepRunsTheSelectedInstruction :
    ({ start with inbox := [⟨e15, false, none⟩] } : State).inFlight = none ∧ placedRequest (.imm8 0#8) = none ∧
      placedRequest (.add none none) ≠ none ∧ decodeTableWord 8 0x05 = some (.tokAbs 0#3) := by decide

/-- A rival issued in phase TOKEN, with the request in progress in that phase. -/
theorem witness_RivalRequestIsRefused :
    ending (step { start with inFlight := some inToken, inbox := [⟨e15, false, some .token⟩] }) =
      some ([0xCC#8], some (.refused .sharedSink)) := by decide

theorem witness_PhasesRunInOrderOnTheSampledRequest :
    (after (step { start with inFlight := some inToken })).isSome = true ∧
      (after (step { start with inFlight := some { inToken with phase := .done } })).map State.inFlight = some none := by
  decide

theorem witness_RefusalMarkIsSetOnlyByARefusal :
    (after (step { start with inbox := [⟨e18, false, none⟩] })).map State.refusalMark = some true ∧
      start.refusalMark = false := by decide

theorem witness_GoodStatesStepToGoodStates :
    ({ start with inFlight := some inToken } : State).Good = true ∧
      ({ start with inFlight := some ⟨e15, .op2, some 0, some 0x83#8, true⟩ } : State).Good = true ∧
      ({ start with inFlight := some { inToken with tok := some 0x18#8 } } : State).Good = true := by decide

theorem witness_PhasedRunEqualsTheTransaction :
    ({ start with inbox := [⟨e15, true, none⟩, ⟨e16, true, none⟩] } : State).inFlight = none ∧
      ∀ a, ([⟨e16, true, none⟩] : List Arrival).head? = some a → a.during = none := by
  refine ⟨rfl, ?_⟩
  rintro a h
  cases h
  rfl

theorem witness_RequestInProgressAlwaysEnds :
    ({ start with inFlight := some inToken, inbox := [⟨e15, false, some .op1⟩] } : State).Good = true := by decide

/-- The longest request, and an ADD with an address. -/
theorem witness_DecodeOfEncodeIsTheInstruction :
    (Instr.encode longest).wf = true ∧ (Instr.encode longest).collisionFree = true ∧
      (Instr.add (some (addr 0xFFFFFFFF#32)) (some (reg 7#3))).wf = true := by decide

theorem witness_EncodeOfDecodeIsTheBytes : decode .tokenRma [0xFF#8] = .ok (.tokRegonly 7#3 7#3) := by decide

end Sys2Proof.Tests
end

section
/-! The resolver's two modifier tables (40_token_resolver.md R61, R63): one equation per row, and what every row of R61
has in common. -/

namespace Sys2Proof.Machine

/-! ### R61: the mod bits of a modifier -/

@[simp] theorem modBits_registerPointer : modBits .registerPointer = 0x00#8 := rfl

@[simp] theorem modBits_registerDispShortPointer : modBits .registerDispShortPointer = 0x40#8 := rfl

@[simp] theorem modBits_registerDispLongPointer : modBits .registerDispLongPointer = 0x80#8 := rfl

@[simp] theorem modBits_registerOnly : modBits .registerOnly = 0xC0#8 := rfl

/-- R61's corner case: the mod bits stay clear of the reg and rm fields. -/
theorem modBits_and_low_bits (m : RegOrMemModifier) : modBits m &&& 0x3F#8 = 0#8 := by
  cases m with
  | registerPointer => rfl
  | registerDispShortPointer => rfl
  | registerDispLongPointer => rfl
  | registerOnly => rfl

/-! ### R63: the modifier of an operand -/

@[simp] theorem determineModifier_reg_normal (r : Reg) :
    determineModifier ⟨.reg r, .noCorr, .normal⟩ = .ok .registerOnly := rfl

@[simp] theorem determineModifier_reg_dereferenced (r : Reg) :
    determineModifier ⟨.reg r, .noCorr, .dereferenced⟩ = .ok .registerPointer := rfl

/-- A correction takes precedence over the operand's type. -/
@[simp] theorem determineModifier_reg_short (r : Reg) (d : BitVec 8) (o : OperandType) :
    determineModifier ⟨.reg r, .short d, o⟩ = .ok .registerDispShortPointer := rfl

/-- A correction takes precedence over the operand's type. -/
@[simp] theorem determineModifier_reg_long (r : Reg) (l : BitVec 32) (o : OperandType) :
    determineModifier ⟨.reg r, .long l, o⟩ = .ok .registerDispLongPointer := rfl

/-- An address reads neither correction nor type. -/
@[simp] theorem determineModifier_addr (a : Addr32) (c : Correction) (o : OperandType) :
    determineModifier ⟨.addr a, c, o⟩ = .ok .registerPointer := rfl

@[simp] theorem determineModifier_imm (n : Imm64) (c : Correction) (o : OperandType) :
    determineModifier ⟨.imm n, c, o⟩ = .error .invalidOperand := rfl

/-! ### The obligations -/

/-- Settles O3: R61's four rows, and the corner case that holds of each of them. -/
theorem modBitsFollowTheModifierTable : Obligations.ModBitsFollowTheModifierTable :=
  ⟨modBits_registerPointer, modBits_registerDispShortPointer, modBits_registerDispLongPointer, modBits_registerOnly,
    modBits_and_low_bits⟩

/-- Settles O4: R63's six rows. -/
theorem modifierFollowsValueCorrectionAndType : Obligations.ModifierFollowsValueCorrectionAndType :=
  fun r a n d l c o =>
    ⟨determineModifier_reg_normal r, determineModifier_reg_dereferenced r, determineModifier_reg_short r d o,
      determineModifier_reg_long r l o, determineModifier_addr a c o, determineModifier_imm n c o⟩

end Sys2Proof.Machine
end

section
/-! LOOKUP (42_encoder.md R84) and the start of a request: when the mnemonic selects a variant, and what a transaction
leaves of a request that is admitted. -/

namespace Sys2Proof.Machine

/-- R84's lookup is the library's least index. -/
theorem firstIndex_eq_idxOf? (l : List Mnemonic) (x : Mnemonic) : firstIndex l x = l.idxOf? x := by
  induction l with
  | nil => rfl
  | cons y ys ih => simp [firstIndex, List.idxOf?_cons, ih]

@[simp] theorem firstIndex_eq_none_iff {l : List Mnemonic} {x : Mnemonic} : firstIndex l x = none ↔ x ∉ l := by
  rw [firstIndex_eq_idxOf?, List.idxOf?_eq_none_iff]

theorem firstIndex_lt_length {l : List Mnemonic} {x : Mnemonic} {i : Nat} (h : firstIndex l x = some i) :
    i < l.length := by
  rw [firstIndex_eq_idxOf?, List.idxOf?_eq_some_iff] at h
  exact h.1

theorem OpCode.wf_iff {o : OpCode} : o.wf = true ↔ o.bytes.length = 1 ∧ o.parallel = true := by
  simp [OpCode.wf, OpCode.singleByte]

/-- R22(b): parallel lists have an entry for every variant. -/
theorem variantAt_ne_none {o : OpCode} (hp : o.parallel = true) {i : Nat} (hi : i < o.mnemonics.length) :
    o.variantAt i ≠ none := by
  simp only [OpCode.parallel, Bool.and_eq_true, beq_iff_eq] at hp
  obtain ⟨⟨⟨hm1, hm2⟩, hz1⟩, hz2⟩ := hp
  have h1 : i < o.methods1.length := hm1 ▸ hi
  have h2 : i < o.methods2.length := hm2 ▸ hi
  have h3 : i < o.sizes1.length := hz1 ▸ hi
  have h4 : i < o.sizes2.length := hz2 ▸ hi
  simp [OpCode.variantAt, h1, h2, h3, h4]

/-- R84: with well-formed metadata only an undeclared mnemonic selects no variant. -/
theorem variant_eq_none_iff {r : Request} (hw : r.opcode.wf = true) :
    r.variant = none ↔ r.mnemonic ∉ r.opcode.mnemonics := by
  obtain ⟨-, hp⟩ := OpCode.wf_iff.mp hw
  rcases hi : firstIndex r.opcode.mnemonics r.mnemonic with _ | i
  · simp [Request.variant, hi, firstIndex_eq_none_iff.mp hi]
  · have hmem : r.mnemonic ∈ r.opcode.mnemonics := by
      by_contra hn
      simp [firstIndex_eq_none_iff.mpr hn] at hi
    simp [Request.variant, hi, hmem, variantAt_ne_none hp (firstIndex_lt_length hi)]

/-- R83: a well-formed opcode's one byte is all of its bytes. -/
theorem writeOpcode_of_wf {o : OpCode} (hw : o.wf = true) : writeOpcode o = o.bytes := by
  obtain ⟨hl, -⟩ := OpCode.wf_iff.mp hw
  obtain ⟨b, hb⟩ := List.length_eq_one_iff.mp hl
  simp [writeOpcode, hb]

/-- R81, R88, R96: an admitted request appends the bytes of its phases and leaves their result. -/
theorem transact_of_wf {r : Request} {s : State} (hf : s.inFlight = none) (hw : r.opcode.wf = true) :
    (transact r s).sink = s.sink ++ (runPhases r).1 ∧
      (transact r s).result = some (.ofFailure (runPhases r).2) := by
  have ha : admission s.inFlight.isSome r = none := by simpa [hf] using (admission_idle_iff r).mpr hw
  rcases transact_cases r s with ⟨_, hr, _⟩ | ⟨_, hk, h⟩ | ⟨_, _, hk, h⟩
  · simp [ha] at hr
  · simp [h, hk, RequestResult.ofFailure]
  · simp [h, hk, RequestResult.ofFailure]

/-- R43: a request on a busy sink is refused. -/
theorem transact_of_busy {s : State} {t : Transient} (hf : s.inFlight = some t) (r : Request) :
    transact r s = s.refuse .sharedSink := by
  simp [transact, hf]

end Sys2Proof.Machine
end

section
/-! Which failures the resolver and the operand writer can raise (60_exceptions.md R93 to R95), followed from the
leaves up to what a whole request's phases call. -/

namespace Sys2Proof.Machine

/-! ### The resolver -/

theorem tokenPartRegister_error {op : Operand} {k : Failure} (h : tokenPartRegister op = .error k) :
    k = .unsupportedAddressing := by
  unfold tokenPartRegister at h
  split at h <;> cases h <;> rfl

theorem determineModifier_error {op : Operand} {k : Failure} (h : determineModifier op = .error k) :
    k = .invalidOperand := by
  unfold determineModifier at h
  split at h <;> cases h
  rfl

theorem tokenPartRma_error {op : Operand} {k : Failure} (h : tokenPartRma op = .error k) : k = .invalidOperand := by
  unfold tokenPartRma at h
  split at h
  · cases h
    exact determineModifier_error ‹_›
  · split at h <;> cases h
    rfl

theorem tokenPart_error {m : AddressingMethod} {z : OperandSize} {op : Operand} {k : Failure}
    (h : tokenPart m z op = .error k) : k = .unsupportedAddressing ∨ k = .invalidOperand := by
  unfold tokenPart at h
  split at h
  · exact .inl (tokenPartRegister_error h)
  · exact .inr (tokenPartRma_error h)
  all_goals
    cases h
    exact .inl rfl

theorem slotPart_error {m : AddressingMethod} {z : OperandSize} {op : Option Operand} {k : Failure}
    (h : slotPart m z op = .error k) : k = .unsupportedAddressing ∨ k = .invalidOperand := by
  unfold slotPart at h
  split at h
  · cases h
  · split at h
    · exact tokenPart_error h
    · cases h

/-- R93, R94(a): all that phase TOKEN can raise. -/
theorem computeToken_error {v : Variant} {e1 e2 : Option Operand} {k : Failure}
    (h : computeToken v e1 e2 = .error k) : k = .unsupportedAddressing ∨ k = .invalidOperand := by
  unfold computeToken at h
  split at h
  · cases h
    exact slotPart_error ‹_›
  · split at h <;> cases h
    exact slotPart_error ‹_›

theorem writeToken_error {hasToken : Bool} {v : Variant} {e1 e2 : Option Operand} {k : Failure}
    (h : writeToken hasToken v e1 e2 = .error k) : k = .unsupportedAddressing ∨ k = .invalidOperand := by
  unfold writeToken at h
  split at h
  · split at h <;> cases h
    exact computeToken_error ‹_›
  · cases h

/-! ### The operand writer -/

theorem fitNumber_error {z : OperandSize} {v : Value} {k : Failure} (h : fitNumber z v = .error k) :
    k = .invalidOperand ∨ k = .unsupportedSize := by
  unfold fitNumber at h
  split at h
  · cases h
    exact .inr rfl
  · split at h
    · cases h
      exact .inl rfl
    · split at h
      · cases h
        exact .inl rfl
      · split at h <;> cases h

theorem rmaAddress_error {v : Value} {k : Failure} (h : rmaAddress v = .error k) : k = .invalidOperand := by
  unfold rmaAddress at h
  split at h
  · cases h
  · cases h
  · split at h <;> cases h
    rfl

/-- R94(b) to (d), R95: all that an operand's value can raise. -/
theorem valueForm_error {m : AddressingMethod} {z : OperandSize} {v : Value} {k : Failure}
    (h : valueForm m z v = .error k) : k = .invalidOperand ∨ k = .unsupportedSize := by
  unfold valueForm at h
  split at h
  case h_4 =>
    split at h <;> cases h
    exact .inl (rmaAddress_error ‹_›)
  case h_1 | h_2 | h_3 =>
    split at h <;> cases h
    exact fitNumber_error ‹_›
  all_goals cases h

/-- The value row that the sequencer picks fails exactly as the writer of the whole transaction does. -/
theorem valueForm_error_iff {m : AddressingMethod} {z : OperandSize} {v : Value} {k : Failure} :
    valueForm m z v = .error k ↔ writeValue m z v = .error k := by
  cases m with
  | memoryAddress | directAddress | immediateData =>
    simp only [valueForm, writeValue, writeNumber]
    rcases fitNumber z v with e | n <;> simp
  | registerOrMemoryAddress =>
    simp only [valueForm, writeValue, writeRmaValue]
    rcases rmaAddress v with e | _ | a <;> simp
  | none | register | relativeOffset | other t => simp [valueForm, writeValue]

theorem writeSlot_error {m : AddressingMethod} {z : OperandSize} {op : Option Operand} {k : Failure}
    (h : writeSlot m z op = .error k) : k = .invalidOperand ∨ k = .unsupportedSize := by
  unfold writeSlot writeOperand at h
  split at h
  · cases h
  · split at h <;> cases h
    exact valueForm_error (valueForm_error_iff.mpr ‹_›)

/-! ### A whole request -/

/-- R92: no phase after LOOKUP raises `UnsupportedMnemonic`. -/
theorem runPhases_unsupportedMnemonic_iff (r : Request) :
    (runPhases r).2 = some .unsupportedMnemonic ↔ r.variant = none := by
  rcases runPhases_cases r with ⟨hv, hp⟩ |
      ⟨v, hv, ⟨k, hk, hp⟩ | ⟨_, _, ⟨k, hk, hp⟩ | ⟨_, _, ⟨k, hk, hp⟩ | ⟨_, _, hp⟩⟩⟩⟩
  · simp [hv, hp]
  · rcases writeToken_error hk with rfl | rfl <;> simp [hv, hp]
  · rcases writeSlot_error hk with rfl | rfl <;> simp [hv, hp]
  · rcases writeSlot_error hk with rfl | rfl <;> simp [hv, hp]
  · simp [hv, hp]

/-- R97's row for LOOKUP: an unselected variant leaves just the opcode. -/
theorem runPhases_of_variant_none {r : Request} (hv : r.variant = none) :
    runPhases r = (writeOpcode r.opcode, some .unsupportedMnemonic) := by
  simp [runPhases, hv]

end Sys2Proof.Machine
end

section
/-! What one step can do to the last result: the sequencer's choice in each phase (42_encoder.md R82), the result an
emission row leaves, and the failures each phase raises (60_exceptions.md R92 to R95). -/

namespace Sys2Proof.Machine

/-! ### The rows that are no requests -/

@[simp] theorem placedRequest_tokenFormOfMod (mod : BitVec 2) (g b : Reg) :
    placedRequest (tokenFormOfMod mod g b) = none := by
  unfold tokenFormOfMod
  split_ifs <;> rfl

@[simp] theorem placedRequest_tokenForm (v : Variant) (e1 e2 : Option Operand) (soFar : Option Byte) (tok : Byte) :
    placedRequest (tokenForm v e1 e2 soFar tok) = none := by
  unfold tokenForm
  split_ifs
  · rfl
  · rfl
  · exact placedRequest_tokenFormOfMod ..
  · rfl

@[simp] theorem placedRequest_form (n : SizedNumber) : placedRequest n.form = none := by
  cases n <;> rfl

theorem placedRequest_valueForm {m : AddressingMethod} {z : OperandSize} {v : Value} {i : Instr}
    (h : valueForm m z v = .ok i) : placedRequest i = none := by
  unfold valueForm at h
  split at h
  case h_4 => split at h <;> cases h <;> rfl
  case h_1 | h_2 | h_3 =>
    split at h <;> cases h
    exact placedRequest_form _
  all_goals
    cases h
    rfl

/-- An emission row goes on, and leaves the last result alone. -/
theorem exec_emission_result {i : Instr} (h : placedRequest i = none) (s : State) :
    ∃ t, exec i s = .next t ∧ t.result = s.result := by
  cases i with
  | encode r => cases h
  | add o1 o2 => cases h
  | tokReg g =>
    refine ⟨_, rfl, ?_⟩
    split <;> rfl
  | _ => exact ⟨_, rfl, rfl⟩

/-! ### The request in progress goes on -/

/-- The failures that the phase of a request in progress can raise (R92 to R95). -/
def Transient.canRaise (t : Transient) (k : Failure) : Prop :=
  match t.phase with
  | .lookup => k = .unsupportedMnemonic ∧ t.request.mnemonic ∉ t.request.opcode.mnemonics
  | .token => k = .unsupportedAddressing ∨ k = .invalidOperand
  | .op1 | .op2 => k = .invalidOperand ∨ k = .unsupportedSize
  | .opc | .done => False

/-- R92: only LOOKUP raises `UnsupportedMnemonic`. -/
theorem Transient.canRaise_unsupportedMnemonic_iff (t : Transient) :
    t.canRaise .unsupportedMnemonic ↔ t.phase = .lookup ∧ t.request.mnemonic ∉ t.request.opcode.mnemonics := by
  rcases hp : t.phase <;> simp [Transient.canRaise, hp]

/-- What an action of a request in progress at s can be, with the failures that P allows: an emission row at s, a move
that keeps the last result or completes the request, a raise, or a stop. -/
inductive Action.GoesOn (s : State) (P : Failure → Prop) : Action → Prop where
  | emit {i : Instr} (h : placedRequest i = none) : GoesOn s P (.run i s)
  | move {s' : State} (h : s'.result = s.result) : GoesOn s P (.goto s')
  | complete : GoesOn s P (.goto s.complete)
  | raise {k : Failure} (h : P k) : GoesOn s P (.goto (s.raise k))
  | stop {f : Fault} : GoesOn s P (.stop f)

theorem tokenAction_goesOn (v : Variant) (t : Transient) (s : State) :
    (tokenAction v t s).GoesOn s (fun k => k = .unsupportedAddressing ∨ k = .invalidOperand) := by
  unfold tokenAction
  split
  · split
    · exact .raise (computeToken_error ‹_›)
    · exact .emit (placedRequest_tokenForm ..)
  · exact .move rfl

theorem operandAction_goesOn (m : AddressingMethod) (z : OperandSize) (op : Option Operand) (t : Transient)
    (s : State) : (operandAction m z op t s).GoesOn s (fun k => k = .invalidOperand ∨ k = .unsupportedSize) := by
  unfold operandAction
  split
  · exact .move rfl
  · split
    · split
      · exact .move rfl
      · exact .emit rfl
      · exact .emit rfl
    · split
      · exact .raise (valueForm_error ‹_›)
      · exact .emit (placedRequest_valueForm ‹_›)

theorem phaseAction_goesOn (t : Transient) (s : State) : (phaseAction t s).GoesOn s t.canRaise := by
  unfold phaseAction Transient.canRaise
  rcases hp : t.phase <;> dsimp only
  case opc =>
    split
    · exact .emit rfl
    · exact .stop
  case lookup =>
    split
    · exact .raise ⟨rfl, firstIndex_eq_none_iff.mp ‹_›⟩
    · exact .move rfl
  case token =>
    split
    · exact .stop
    · exact tokenAction_goesOn ..
  case op1 | op2 =>
    split
    · exact .stop
    · exact operandAction_goesOn ..
  case done => exact .complete

/-- What a step by such an action leaves as the last result. -/
theorem step_result_of_goesOn {s s' : State} {P : Failure → Prop} (hgo : (nextAction s).GoesOn s P)
    (hs : step s = .next s') :
    s'.result = s.result ∨ s'.result = some .ok ∨ ∃ k, s'.result = some (.fault k) ∧ P k := by
  generalize ha : nextAction s = a at hgo
  cases hgo with
  | emit hi =>
    obtain ⟨u, hu, hr⟩ := exec_emission_result hi s
    rw [step_of_run ha, hu] at hs
    cases hs
    exact .inl hr
  | move hr =>
    rw [step_of_goto ha] at hs
    cases hs
    exact .inl hr
  | complete =>
    rw [step_of_goto ha] at hs
    cases hs
    exact .inr (.inl rfl)
  | raise hk =>
    rw [step_of_goto ha] at hs
    cases hs
    exact .inr (.inr ⟨_, rfl, hk⟩)
  | stop =>
    rw [step_of_stop ha] at hs
    cases hs

/-- A step with a request in progress refuses a rival (R43), keeps the last result, completes the request, or raises
what the phase can raise. -/
theorem step_busy_result {s s' : State} {t : Transient} (hf : s.inFlight = some t) (hs : step s = .next s') :
    s'.result = some (.refused .sharedSink) ∨ s'.result = s.result ∨ s'.result = some .ok ∨
      ∃ k, s'.result = some (.fault k) ∧ t.canRaise k := by
  rcases step_busy hf with ⟨a, rest, -, -, hstep⟩ | hact
  · have hbusy : ({ s with inbox := rest } : State).inFlight = some t := hf
    rw [hstep, exec_instrOf, exec, execEncode_next, transact_of_busy hbusy] at hs
    cases hs
    exact .inl rfl
  · exact .inr (step_result_of_goesOn (hact ▸ phaseAction_goesOn t s) hs)

/-! ### The obligation -/

/-- R92 for a whole request: the condition, and what the sink has gained. -/
theorem transact_unsupportedMnemonic {r : Request} {s : State} (hf : s.inFlight = none) (hw : r.opcode.wf = true) :
    ((transact r s).result = some (.fault .unsupportedMnemonic) ↔ r.mnemonic ∉ r.opcode.mnemonics) ∧
      ((transact r s).result = some (.fault .unsupportedMnemonic) →
        (transact r s).sink = s.sink ++ r.opcode.bytes) := by
  obtain ⟨hsink, hres⟩ := transact_of_wf hf hw
  have hiff : (transact r s).result = some (.fault .unsupportedMnemonic) ↔ r.variant = none := by
    rw [hres, ← runPhases_unsupportedMnemonic_iff]
    cases (runPhases r).2 <;> simp [RequestResult.ofFailure]
  refine ⟨hiff.trans (variant_eq_none_iff hw), fun h => ?_⟩
  rw [hsink, runPhases_of_variant_none (hiff.mp h), writeOpcode_of_wf hw]

/-- R92 for one step of a request in progress: only LOOKUP leaves `UnsupportedMnemonic` as a new result. -/
theorem step_unsupportedMnemonic {s s' : State} {t : Transient} (hf : s.inFlight = some t)
    (hold : s.result ≠ some (.fault .unsupportedMnemonic)) (hs : step s = .next s')
    (hnew : s'.result = some (.fault .unsupportedMnemonic)) :
    t.phase = .lookup ∧ t.request.mnemonic ∉ t.request.opcode.mnemonics := by
  rcases step_busy_result hf hs with h | h | h | ⟨k, h, hk⟩ <;> rw [hnew] at h
  · cases h
  · exact absurd h.symm hold
  · cases h
  · cases h
    exact t.canRaise_unsupportedMnemonic_iff.mp hk

/-- Settles O19: the whole request by how its phases end, the request in progress by what its phase can raise. -/
theorem unsupportedMnemonicExactlyWhenUndeclared : Obligations.UnsupportedMnemonicExactlyWhenUndeclared :=
  ⟨fun r s hf hw => ⟨transact r s, execEncode_next r s, transact_unsupportedMnemonic hf hw⟩,
    fun _ _ _ hf hold hs hnew => step_unsupportedMnemonic hf hold hs hnew⟩

end Sys2Proof.Machine
end

section
/-! The emission rows (30_encoding.md R49 to R54, 41_operand_writer.md R71 to R78): one equation says what any of them
does, its bytes at the append position and its change of the request in progress; each row's obligation is a case. -/

namespace Sys2Proof.Machine

/-! ### One equation for all rows -/

/-- The one byte of a token row. -/
def rowByte (i : Instr) : Byte := (encode i).headD 0#8

/-- What an emission row run at s makes of the request in progress: the end of its phase, a token contribution, or the
value mark. -/
def rowFlight (i : Instr) (s : State) (t : Transient) : Transient :=
  match i with
  | .opc _ | .disp8 _ | .disp32 _ => { t with phase := t.phase.next, valueDone := false }
  | .tokReg _ =>
    if rmaPending s then { t with tok := some (s.tokSoFar ||| rowByte i) }
    else { t with phase := t.phase.next, tok := some (s.tokSoFar ||| rowByte i), valueDone := false }
  | .tokRegonly _ _ | .tokRegptr _ _ | .tokDisp8 _ _ | .tokDisp32 _ _ | .tokAbs _ | .tokNone =>
    { t with phase := t.phase.next, tok := some (s.tokSoFar ||| rowByte i), valueDone := false }
  | .imm8 _ | .imm16 _ | .imm32 _ | .addr32 _ | .novalueRel | .novalue => { t with valueDone := true }
  | .encode _ | .add _ _ => t

/-- The state after an emission row. -/
def State.afterRow (s : State) (i : Instr) : State := (s.append (emitted i s)).mapFlight (rowFlight i s)

@[simp] theorem State.append_nil (s : State) : s.append [] = s := by simp [State.append]

/-- R85: completing the token is one append and one change of the request in progress. -/
theorem State.putToken_eq (s : State) {p q : Byte} (h : p = q) :
    s.putToken p = (s.append [s.tokSoFar ||| q]).mapFlight fun t =>
      { t with phase := t.phase.next, tok := some (s.tokSoFar ||| q), valueDone := false } := by
  subst h
  rcases s with ⟨sink, _ | t, _, _, _⟩ <;> simp [State.putToken, State.orToken, State.mapFlight, State.append,
    State.advance]

/-- While an RMA slot is to come, TOK_REG is a contribution alone (log 9). -/
theorem exec_tokReg_pending {s : State} (h : rmaPending s = true) (g : Reg) :
    exec (.tokReg g) s = .next (s.orToken (tokenBits 0#2 g 0#3)) := by
  simp [exec, execTokReg, registerToken_eq, h]

/-- With no RMA slot to come, TOK_REG completes the token (log 9). -/
theorem exec_tokReg_last {s : State} (h : rmaPending s = false) (g : Reg) :
    exec (.tokReg g) s = .next (s.putToken (tokenBits 0#2 g 0#3)) := by
  simp [exec, execTokReg, registerToken_eq, h]

theorem rowFlight_tokReg_pending {s : State} (h : rmaPending s = true) (g : Reg) :
    rowFlight (.tokReg g) s = fun t => { t with tok := some (s.tokSoFar ||| tokenBits 0#2 g 0#3) } := by
  funext t
  exact if_pos h

theorem rowFlight_tokReg_last {s : State} (h : rmaPending s = false) (g : Reg) :
    rowFlight (.tokReg g) s = fun t =>
      { t with phase := t.phase.next, tok := some (s.tokSoFar ||| tokenBits 0#2 g 0#3), valueDone := false } := by
  funext t
  exact if_neg (by simp [h])

theorem afterRow_tokReg_pending {s : State} (h : rmaPending s = true) (g : Reg) :
    s.afterRow (.tokReg g) = s.orToken (tokenBits 0#2 g 0#3) := by
  simp [State.afterRow, emitted, rowFlight_tokReg_pending, State.orToken, h]

theorem afterRow_tokReg_last {s : State} (h : rmaPending s = false) (g : Reg) :
    s.afterRow (.tokReg g) = s.putToken (tokenBits 0#2 g 0#3) := by
  simp [State.afterRow, emitted, encode, rowFlight_tokReg_last, s.putToken_eq rfl, h]

/-- What every emission row does (log 10: on every state). -/
theorem exec_row {i : Instr} (h : placedRequest i = none) (s : State) : exec i s = .next (s.afterRow i) := by
  cases i with
  | encode r => cases h
  | add o1 o2 => cases h
  | tokRegonly g b => exact congrArg _ (s.putToken_eq (rmaToken_eq _ g b))
  | tokRegptr g b => exact congrArg _ (s.putToken_eq (rmaToken_eq _ g b))
  | tokDisp8 g b => exact congrArg _ (s.putToken_eq (rmaToken_eq _ g b))
  | tokDisp32 g b => exact congrArg _ (s.putToken_eq (rmaToken_eq _ g b))
  | tokAbs g => exact congrArg _ (s.putToken_eq (absToken_eq g))
  | tokNone => exact congrArg _ (s.putToken_eq rfl)
  | tokReg g =>
    cases hp : rmaPending s with
    | true => rw [exec_tokReg_pending hp, afterRow_tokReg_pending hp]
    | false => rw [exec_tokReg_last hp, afterRow_tokReg_last hp]
  | opc b => simp only [exec, execOpc, wU8_eq]; rfl
  | imm8 v => simp only [exec, execImm8, wU8_eq]; rfl
  | imm16 v => simp only [exec, execImm16, wU16_eq]; rfl
  | imm32 v => simp only [exec, execImm32, wU32_eq]; rfl
  | addr32 a => simp only [exec, execAddr32, wU32_eq]; rfl
  | disp8 d => simp only [exec, execDisp8, wI8_eq]; rfl
  | disp32 d => simp only [exec, execDisp32, wI32_eq]; rfl
  | novalueRel => simp [exec, execNovalueRel, State.afterRow, emitted, encode]; rfl
  | novalue => simp [exec, execNovalue, State.afterRow, emitted, encode]; rfl

/-! ### What a row leaves unchanged -/

@[simp] theorem State.afterRow_sink (s : State) (i : Instr) : (s.afterRow i).sink = s.sink ++ emitted i s := rfl
@[simp] theorem State.afterRow_inFlight (s : State) (i : Instr) :
    (s.afterRow i).inFlight = s.inFlight.map (rowFlight i s) := rfl
@[simp] theorem State.afterRow_result (s : State) (i : Instr) : (s.afterRow i).result = s.result := rfl
@[simp] theorem State.afterRow_refusalMark (s : State) (i : Instr) : (s.afterRow i).refusalMark = s.refusalMark := rfl
@[simp] theorem State.afterRow_inbox (s : State) (i : Instr) : (s.afterRow i).inbox = s.inbox := rfl

@[simp] theorem rowFlight_request (i : Instr) (s : State) (t : Transient) : (rowFlight i s t).request = t.request := by
  unfold rowFlight
  split
  case h_4 => split <;> rfl
  all_goals rfl

@[simp] theorem rowFlight_index (i : Instr) (s : State) (t : Transient) : (rowFlight i s t).index = t.index := by
  unfold rowFlight
  split
  case h_4 => split <;> rfl
  all_goals rfl

/-- R82: a row stays in its phase or ends it. -/
theorem rowFlight_phase (i : Instr) (s : State) (t : Transient) :
    (rowFlight i s t).phase = t.phase ∨ (rowFlight i s t).phase = t.phase.next := by
  unfold rowFlight
  split
  case h_4 =>
    split
    · exact .inl rfl
    · exact .inr rfl
  case h_1 | h_2 | h_3 | h_5 | h_6 | h_7 | h_8 | h_9 | h_10 => exact .inr rfl
  all_goals exact .inl rfl

/-- R31: an append alone is the frame of R38. -/
theorem appendsOnly_append (s : State) (bs : List Byte) : AppendsOnly bs s (s.append bs) := by
  refine ⟨fun k _ => s.byteAt_append_at bs k, fun p hp => ?_, s.append_pos bs, rfl, rfl, rfl⟩
  rcases hp with hp | hp
  · exact s.byteAt_append_before bs hp
  · have hlong : (s.append bs).sink.length ≤ p := by simpa [State.pos] using hp
    have hshort : s.sink.length ≤ p := le_trans (Nat.le_add_right _ _) hp
    simp only [State.byteAt, List.getElem?_eq_none hlong, List.getElem?_eq_none hshort]

theorem sameRequest_afterRow (s : State) (i : Instr) : SameRequest s (s.afterRow i) := by
  constructor <;> rw [State.afterRow_inFlight, Option.map_map] <;> congr 1 <;> funext t <;> simp

/-! ### The obligations -/

/-- Settles O10: the token rows are cases of `exec_row`. -/
theorem tokenRowsWriteTheirPattern : Obligations.TokenRowsWriteTheirPattern := fun _ _ s =>
  ⟨exec_row rfl s, exec_row rfl s, exec_row rfl s, exec_row rfl s, exec_row rfl s, exec_row rfl s⟩

/-- Settles O11: the two cases of TOK_REG, by what is still to contribute. -/
theorem tokRegOrsItsCodeIntoTheToken : Obligations.TokRegOrsItsCodeIntoTheToken :=
  fun g s => ⟨fun h => exec_tokReg_pending h g,
    fun h => (exec_tokReg_last h g).trans (congrArg _ (s.putToken_eq rfl))⟩

/-- Settles O12: the value rows are cases of `exec_row`. -/
theorem valueRowsAppendTheirNumberLittleEndian : Obligations.ValueRowsAppendTheirNumberLittleEndian :=
  fun _ _ _ s => ⟨exec_row rfl s, exec_row rfl s, exec_row rfl s, exec_row rfl s⟩

/-- R77: a short displacement's byte is its residue. -/
theorem ofNat_toInt_emod (d : BitVec 8) : BitVec.ofNat 8 (d.toInt % 256).toNat = d := by
  have h : (d.toInt % 256).toNat = d.toNat := twos_toInt 1 d
  simp [h]

/-- R8: the bytes of a number are its successive quotients' low bytes. -/
theorem leBytes_eq_range (n v : Nat) :
    leBytes n v = (List.range n).map fun k => BitVec.ofNat 8 (v / 256 ^ k) := by
  induction n generalizing v with
  | zero => rfl
  | succ n ih =>
    rw [leBytes, ih, List.range_succ_eq_map, List.map_cons, List.map_map]
    simp [Function.comp_def, Nat.div_div_eq_div_mul, Nat.pow_succ']

/-- R77: a long displacement's bytes are those of its residue. -/
theorem bytesLe32_eq_residue (l : BitVec 32) :
    bytesLe32 l = (List.range 4).map fun k => BitVec.ofNat 8 ((l.toInt % 2 ^ 32).toNat / 256 ^ k) := by
  rw [← wI32_eq, wI32, leBytes_eq_range]
  rfl

/-- Settles O13: the residues of R77 are the bit vectors' own bytes. -/
theorem displacementRowsAppendTwosComplement : Obligations.DisplacementRowsAppendTwosComplement := by
  refine fun d l s =>
    ⟨⟨_, exec_row rfl s, ?_, rfl, rfl, rfl, rfl⟩, _, exec_row rfl s, ?_, rfl, rfl, rfl, rfl⟩
  · rw [ofNat_toInt_emod]
    rfl
  · rw [← bytesLe32_eq_residue]
    rfl

/-- Settles O16: the frame of `exec_row`. -/
theorem emissionRowsAppendAndLeaveTheRest : Obligations.EmissionRowsAppendAndLeaveTheRest :=
  fun i s h => ⟨s.afterRow i, exec_row h s, appendsOnly_append s (emitted i s), sameRequest_afterRow s i⟩

end Sys2Proof.Machine
end

section
/-! The token resolver (40_token_resolver.md R62 to R70): when a slot's contribution exists, that it is then the slot's
token fields side by side, and so for the whole token. -/

namespace Sys2Proof.Machine

/-! ### The contribution of one slot -/

@[simp] theorem tokenPart_register_reg (z : OperandSize) (r : Reg) (c : Correction) (o : OperandType) :
    tokenPart .register z ⟨.reg r, c, o⟩ = .ok (tokenBits 0#2 r 0#3) :=
  congrArg Except.ok (registerToken_eq r)

@[simp] theorem tokenPart_register_addr (z : OperandSize) (a : Addr32) (c : Correction) (o : OperandType) :
    tokenPart .register z ⟨.addr a, c, o⟩ = .error .unsupportedAddressing := rfl

@[simp] theorem tokenPart_register_imm (z : OperandSize) (n : Imm64) (c : Correction) (o : OperandType) :
    tokenPart .register z ⟨.imm n, c, o⟩ = .error .unsupportedAddressing := rfl

/-- R64 for a register, before its fields are named: the modifier's bits and the code. -/
theorem tokenPart_rma_reg_of_modifier (z : OperandSize) {r : Reg} {c : Correction} {o : OperandType}
    {m : RegOrMemModifier} (h : determineModifier ⟨.reg r, c, o⟩ = .ok m) :
    tokenPart .registerOrMemoryAddress z ⟨.reg r, c, o⟩ = .ok (modBits m ||| regCode r) := by
  simp [tokenPart, tokenPartRma, h]

/-- A modifier's bits and a code are the mod and rm fields. -/
theorem modBits_or_regCode (m : RegOrMemModifier) (r : Reg) :
    modBits m ||| regCode r = tokenBits (modField (modBits m)) 0#3 r := by
  cases m <;> revert r <;> decide

@[simp] theorem tokenPart_rma_reg (z : OperandSize) (r : Reg) (c : Correction) (o : OperandType) :
    tokenPart .registerOrMemoryAddress z ⟨.reg r, c, o⟩ =
      .ok (tokenBits (Operand.modBitsField ⟨.reg r, c, o⟩) 0#3 r) := by
  have hmod (m : RegOrMemModifier) (h : determineModifier ⟨.reg r, c, o⟩ = .ok m) :=
    (tokenPart_rma_reg_of_modifier z h).trans (congrArg Except.ok (modBits_or_regCode m r))
  cases c with
  | noCorr =>
    cases o with
    | normal => exact hmod .registerOnly rfl
    | dereferenced => exact hmod .registerPointer rfl
  | short d => exact hmod .registerDispShortPointer rfl
  | long l => exact hmod .registerDispLongPointer rfl

@[simp] theorem tokenPart_rma_addr (z : OperandSize) (a : Addr32) (c : Correction) (o : OperandType) :
    tokenPart .registerOrMemoryAddress z ⟨.addr a, c, o⟩ = .ok (tokenBits 0#2 0#3 5#3) := rfl

@[simp] theorem tokenPart_rma_imm (z : OperandSize) (n : Imm64) (c : Correction) (o : OperandType) :
    tokenPart .registerOrMemoryAddress z ⟨.imm n, c, o⟩ = .error .invalidOperand := rfl

@[simp] theorem slotPart_none (m : AddressingMethod) (z : OperandSize) : slotPart m z none = .ok 0x00#8 := rfl

@[simp] theorem slotPart_register (z : OperandSize) (o : Operand) :
    slotPart .register z (some o) = tokenPart .register z o := rfl

@[simp] theorem slotPart_rma (z : OperandSize) (o : Operand) :
    slotPart .registerOrMemoryAddress z (some o) = tokenPart .registerOrMemoryAddress z o := rfl

/-- R65: the resolver has no contribution for any other method. -/
theorem tokenPart_of_other {m : AddressingMethod} (hr : m ≠ .register) (ha : m ≠ .registerOrMemoryAddress)
    (z : OperandSize) (o : Operand) : tokenPart m z o = .error .unsupportedAddressing := by
  cases m with
  | register => exact absurd rfl hr
  | registerOrMemoryAddress => exact absurd rfl ha
  | _ => rfl

/-- R67: within a request any other method contributes nothing (decision D7, log 22). -/
theorem slotPart_of_other {m : AddressingMethod} (hr : m ≠ .register) (ha : m ≠ .registerOrMemoryAddress)
    (z : OperandSize) (op : Option Operand) : slotPart m z op = .ok 0x00#8 := by
  cases op with
  | none => rfl
  | some o => simp [slotPart, contributes, hr, ha]

/-! ### The token fields a slot fills -/

theorem slotMod_of_ne {m : AddressingMethod} (h : m ≠ .registerOrMemoryAddress) (op : Option Operand) :
    slotMod m op = 0#2 := by
  cases m with
  | registerOrMemoryAddress => exact absurd rfl h
  | _ => simp [slotMod]

theorem slotRm_of_ne {m : AddressingMethod} (h : m ≠ .registerOrMemoryAddress) (op : Option Operand) :
    slotRm m op = 0#3 := by
  cases m with
  | registerOrMemoryAddress => exact absurd rfl h
  | _ => simp [slotRm]

theorem slotReg_of_ne {m : AddressingMethod} (h : m ≠ .register) (op : Option Operand) : slotReg m op = 0#3 := by
  cases m with
  | register => exact absurd rfl h
  | _ => simp [slotReg]

@[simp] theorem slotMod_none (m : AddressingMethod) : slotMod m none = 0#2 := by simp [slotMod]

@[simp] theorem slotReg_none (m : AddressingMethod) : slotReg m none = 0#3 := by simp [slotReg]

@[simp] theorem slotRm_none (m : AddressingMethod) : slotRm m none = 0#3 := by simp [slotRm]

@[simp] theorem tokenBits_zero : tokenBits 0#2 0#3 0#3 = 0#8 := rfl

/-- The two ways a slot's contribution fails (R93, R94(a)), and what it is where it does not (R49). -/
theorem slotPart_cases (m : AddressingMethod) (z : OperandSize) (op : Option Operand) :
    (m = .register ∧ (∃ o, op = some o ∧ o.value.number.isSome = true) ∧
        slotPart m z op = .error .unsupportedAddressing) ∨
      (m = .registerOrMemoryAddress ∧ (∃ o, op = some o ∧ ∃ n, o.value = .imm n) ∧
        slotPart m z op = .error .invalidOperand) ∨
      slotPart m z op = .ok (tokenBits (slotMod m op) (slotReg m op) (slotRm m op)) := by
  rcases op with _ | ⟨v, c, o⟩
  · exact .inr (.inr (by simp))
  by_cases hr : m = .register
  · subst hr
    cases v with
    | reg r => exact .inr (.inr (tokenPart_register_reg z r c o))
    | addr a => exact .inl ⟨rfl, ⟨_, rfl, rfl⟩, rfl⟩
    | imm n => exact .inl ⟨rfl, ⟨_, rfl, rfl⟩, rfl⟩
  by_cases ha : m = .registerOrMemoryAddress
  · subst ha
    cases v with
    | reg r => exact .inr (.inr (tokenPart_rma_reg z r c o))
    | addr a => exact .inr (.inr (tokenPart_rma_addr z a c o))
    | imm n => exact .inr (.inl ⟨rfl, ⟨_, rfl, n, rfl⟩, rfl⟩)
  · exact .inr (.inr (by simp [slotPart_of_other hr ha, slotMod_of_ne ha, slotReg_of_ne hr, slotRm_of_ne ha]))

theorem slotPart_ok_eq {m : AddressingMethod} {z : OperandSize} {op : Option Operand} {b : Byte}
    (h : slotPart m z op = .ok b) : b = tokenBits (slotMod m op) (slotReg m op) (slotRm m op) := by
  rcases slotPart_cases m z op with ⟨-, -, h'⟩ | ⟨-, -, h'⟩ | h' <;> rw [h] at h' <;> cases h'
  rfl

/-- The causes of a slot's failure in phase TOKEN (R93, R94(a)). -/
theorem slotPart_error_cause {m : AddressingMethod} {z : OperandSize} {op : Option Operand} {k : Failure}
    (h : slotPart m z op = .error k) :
    (k = .unsupportedAddressing ∧ m = .register ∧ ∃ o, op = some o ∧ o.value.number.isSome = true) ∨
      (k = .invalidOperand ∧ m = .registerOrMemoryAddress ∧ ∃ o, op = some o ∧ ∃ n, o.value = .imm n) := by
  rcases slotPart_cases m z op with ⟨hm, ho, h'⟩ | ⟨hm, ho, h'⟩ | h' <;> rw [h] at h' <;> cases h'
  · exact .inl ⟨rfl, hm, ho⟩
  · exact .inr ⟨rfl, hm, ho⟩

/-! ### The whole token -/

theorem computeToken_error_first {v : Variant} {e1 e2 : Option Operand} {k : Failure}
    (h : slotPart v.method1 v.size1 e1 = .error k) : computeToken v e1 e2 = .error k := by
  simp [computeToken, h]

theorem computeToken_error_second {v : Variant} {e1 e2 : Option Operand} {a : Byte} {k : Failure}
    (h1 : slotPart v.method1 v.size1 e1 = .ok a) (h2 : slotPart v.method2 v.size2 e2 = .error k) :
    computeToken v e1 e2 = .error k := by
  simp [computeToken, h1, h2]

theorem computeToken_ok {v : Variant} {e1 e2 : Option Operand} {a b : Byte}
    (h1 : slotPart v.method1 v.size1 e1 = .ok a) (h2 : slotPart v.method2 v.size2 e2 = .ok b) :
    computeToken v e1 e2 = .ok (a ||| b) := by
  simp [computeToken, h1, h2]

/-- R68: the slots' contributions behind a token. -/
theorem slotParts_of_computeToken {v : Variant} {e1 e2 : Option Operand} {tok : Byte}
    (h : computeToken v e1 e2 = .ok tok) :
    ∃ a b, slotPart v.method1 v.size1 e1 = .ok a ∧ slotPart v.method2 v.size2 e2 = .ok b ∧ tok = a ||| b := by
  rcases h1 : slotPart v.method1 v.size1 e1 with k | a
  · rw [computeToken_error_first h1] at h
    cases h
  rcases h2 : slotPart v.method2 v.size2 e2 with k | b
  · rw [computeToken_error_second h1 h2] at h
    cases h
  rw [computeToken_ok h1 h2] at h
  cases h
  exact ⟨a, b, rfl, rfl, rfl⟩

/-- R98: the slot that a failure in phase TOKEN comes from. -/
theorem slotPart_of_computeToken_error {v : Variant} {e1 e2 : Option Operand} {k : Failure}
    (h : computeToken v e1 e2 = .error k) :
    slotPart v.method1 v.size1 e1 = .error k ∨ slotPart v.method2 v.size2 e2 = .error k := by
  rcases h1 : slotPart v.method1 v.size1 e1 with k' | a
  · rw [computeToken_error_first h1] at h
    exact .inl (by cases h; rfl)
  rcases h2 : slotPart v.method2 v.size2 e2 with k' | b
  · rw [computeToken_error_second h1 h2] at h
    exact .inr (by cases h; rfl)
  rw [computeToken_ok h1 h2] at h
  cases h

/-- The resolver's token is the one of the bit patterns (R49, R68). -/
theorem computeToken_eq_encodeToken {v : Variant} {e1 e2 : Option Operand} {tok : Byte}
    (h : computeToken v e1 e2 = .ok tok) : tok = encodeToken v e1 e2 := by
  obtain ⟨a, b, h1, h2, rfl⟩ := slotParts_of_computeToken h
  rw [slotPart_ok_eq h1, slotPart_ok_eq h2, tokenBits_or]
  rfl

/-! ### The obligations -/

/-- R62: a `Register` contribution leaves the mod and rm fields 0. -/
theorem registerPart_and_mod_rm_mask (r : Reg) : (regCode r <<< 3) &&& 0xC7#8 = 0#8 := by
  revert r
  decide

/-- Settles O5: the three kinds of value, and the writer's empty value. -/
theorem registerSlotFillsTheRegField : Obligations.RegisterSlotFillsTheRegField := fun z r a n c o =>
  ⟨rfl, registerPart_and_mod_rm_mask r, tokenPart_register_addr z a c o, tokenPart_register_imm z n c o, rfl⟩

theorem tokenBits_and_reg_mask (m : BitVec 2) (rm : Reg) : tokenBits m 0#3 rm &&& 0x38#8 = 0#8 := by
  revert m rm
  decide

/-- R64: an RMA contribution leaves the reg field 0. -/
theorem rmaPart_and_reg_mask {z : OperandSize} {op : Operand} {b : Byte}
    (h : tokenPart .registerOrMemoryAddress z op = .ok b) : b &&& 0x38#8 = 0#8 := by
  rw [← slotPart_rma] at h
  rw [slotPart_ok_eq h, slotReg_of_ne (by decide), tokenBits_and_reg_mask]

/-- Settles O6: the three kinds of value. -/
theorem rmaSlotFillsTheModAndRmFields : Obligations.RmaSlotFillsTheModAndRmFields := by
  refine fun z r a n c o => ⟨fun m h => tokenPart_rma_reg_of_modifier z h, tokenPart_rma_addr z a c o, fun m h => ?_,
    tokenPart_rma_imm z n c o, rfl, rfl, fun op b h => rmaPart_and_reg_mask h⟩
  cases h
  rfl

/-- Settles O7. -/
theorem otherMethodsNeverReachTheResolver : Obligations.OtherMethodsNeverReachTheResolver :=
  fun _ z op hr ha => ⟨tokenPart_of_other hr ha z op, slotPart_of_other hr ha z (some op)⟩

/-- Settles O8: the order of the slots, and two collisions as ORs of fields. -/
theorem tokenOrsTheSlotsInOrder : Obligations.TokenOrsTheSlotsInOrder := by
  refine fun v e1 e2 => ⟨fun k => computeToken_error_first, fun a k => computeToken_error_second,
    fun a b => computeToken_ok, fun g g' c c' o o' hm1 hm2 => ?_, fun b b' hm1 hm2 => ?_⟩
  · rw [computeToken_ok (a := tokenBits 0#2 g 0#3) (b := tokenBits 0#2 g' 0#3) (by simp [hm1]) (by simp [hm2]),
      tokenBits_or]
    simp
  · rw [computeToken_ok (a := tokenBits 3#2 0#3 b) (b := tokenBits 0#2 0#3 b') (by simp [hm1, Operand.modBitsField])
      (by simp [hm2, Operand.modBitsField]), tokenBits_or]
    simp

end Sys2Proof.Machine
end

section
/-! The operand writer (41_operand_writer.md R71 to R79): the causes of its failures, its bytes against the bit patterns
where it has none, and which slots take their operands. -/

namespace Sys2Proof.Machine

/-! ### Numbers (R72, R73) -/

theorem writeNumber_of_width_none {z : OperandSize} (hz : z.width = none) (v : Value) :
    writeNumber z v = .error .unsupportedSize := by
  simp [writeNumber, fitNumber, hz]

theorem writeNumber_of_number_none {z : OperandSize} {w : Nat} {v : Value} (hz : z.width = some w)
    (hv : v.number = none) : writeNumber z v = .error .invalidOperand := by
  simp [writeNumber, fitNumber, hz, hv]

theorem writeNumber_of_too_large {z : OperandSize} {w n : Nat} {v : Value} (hz : z.width = some w)
    (hv : v.number = some n) (hn : 2 ^ (8 * w) ≤ n) : writeNumber z v = .error .invalidOperand := by
  simp [writeNumber, fitNumber, hz, hv, hn]

theorem fitNumber_byte {v : Value} {n : Nat} (hv : v.number = some n) (hn : n < 2 ^ 8) :
    fitNumber .byte v = .ok (.u8 (BitVec.ofNat 8 n)) := by
  simp only [fitNumber, OperandSize.width, hv, ge_iff_le, if_neg (Nat.not_le.mpr hn)]

theorem fitNumber_word {v : Value} {n : Nat} (hv : v.number = some n) (hn : n < 2 ^ 16) :
    fitNumber .word v = .ok (.u16 (BitVec.ofNat 16 n)) := by
  simp only [fitNumber, OperandSize.width, hv, ge_iff_le, if_neg (Nat.not_le.mpr hn)]

theorem fitNumber_dword {v : Value} {n : Nat} (hv : v.number = some n) (hn : n < 2 ^ 32) :
    fitNumber .dword v = .ok (.u32 (BitVec.ofNat 32 n)) := by
  simp only [fitNumber, OperandSize.width, hv, ge_iff_le, if_neg (Nat.not_le.mpr hn)]

/-- R53: a number that fits its size is written as its bits. -/
theorem writeNumber_of_fits {z : OperandSize} {w n : Nat} {v : Value} (hz : z.width = some w)
    (hv : v.number = some n) (hn : n < 2 ^ (8 * w)) : writeNumber z v = .ok (encodeNumber z n) := by
  cases z with
  | other t => cases hz
  | byte => cases hz; simp [writeNumber, fitNumber_byte hv hn, SizedNumber.bytes, encodeNumber]
  | word => cases hz; simp [writeNumber, fitNumber_word hv hn, SizedNumber.bytes, encodeNumber]
  | dword => cases hz; simp [writeNumber, fitNumber_dword hv hn, SizedNumber.bytes, encodeNumber]

/-- R8, R53: the bit patterns are the bytes of the number, least significant first. -/
theorem encodeNumber_eq_leBytes {z : OperandSize} {w n : Nat} (hz : z.width = some w) (hn : n < 2 ^ (8 * w)) :
    encodeNumber z n = leBytes w n := by
  cases z with
  | other t => cases hz
  | byte => cases hz; rfl
  | word =>
    cases hz
    rw [encodeNumber, ← leBytes_two, BitVec.toNat_ofNat, Nat.mod_eq_of_lt hn]
  | dword =>
    cases hz
    rw [encodeNumber, ← leBytes_four, BitVec.toNat_ofNat, Nat.mod_eq_of_lt hn]

/-- The checks of R73 in their order, and the write. -/
theorem writeNumber_cases (z : OperandSize) (v : Value) :
    (z.width = none ∧ writeNumber z v = .error .unsupportedSize) ∨
      ∃ w, z.width = some w ∧
        (((∃ g, v = .reg g) ∧ writeNumber z v = .error .invalidOperand) ∨
          ∃ n, v.number = some n ∧
            ((2 ^ (8 * w) ≤ n ∧ writeNumber z v = .error .invalidOperand) ∨
              (n < 2 ^ (8 * w) ∧ writeNumber z v = .ok (encodeNumber z n)))) := by
  rcases hz : z.width with _ | w
  · exact .inl ⟨rfl, writeNumber_of_width_none hz v⟩
  refine .inr ⟨w, rfl, ?_⟩
  rcases hv : v.number with _ | n
  · cases v with
    | reg g => exact .inl ⟨⟨g, rfl⟩, writeNumber_of_number_none hz hv⟩
    | addr a => cases hv
    | imm k => cases hv
  refine .inr ⟨n, rfl, ?_⟩
  rcases Nat.lt_or_ge n (2 ^ (8 * w)) with hn | hn
  · exact .inr ⟨hn, writeNumber_of_fits hz hv hn⟩
  · exact .inl ⟨hn, writeNumber_of_too_large hz hv hn⟩

/-! ### The value of one slot (R71) -/

theorem numericMethod_iff {m : AddressingMethod} :
    numericMethod m = true ↔ m = .memoryAddress ∨ m = .directAddress ∨ m = .immediateData := by
  simp [numericMethod, or_assoc]

theorem writeValue_of_numeric {m : AddressingMethod} (h : numericMethod m = true) (z : OperandSize) (v : Value) :
    writeValue m z v = writeNumber z v := by
  rcases numericMethod_iff.mp h with rfl | rfl | rfl <;> rfl

theorem encodeValue_of_numeric {m : AddressingMethod} (h : numericMethod m = true) (z : OperandSize) (v : Value) :
    encodeValue m z v = encodeNumber z (v.number.getD 0) := by
  rcases numericMethod_iff.mp h with rfl | rfl | rfl <;> rfl

theorem slotOk_of_numeric {m : AddressingMethod} (h : numericMethod m = true) (hasToken : Bool) (z : OperandSize)
    (o : Operand) : slotOk hasToken m z o = true ↔
      ∃ w n, z.width = some w ∧ o.value.number = some n ∧ n < 2 ^ (8 * w) := by
  have hslot : slotOk hasToken m z o = slotOk hasToken .immediateData z o := by
    rcases numericMethod_iff.mp h with rfl | rfl | rfl <;> rfl
  rw [hslot, slotOk]
  rcases z.width with _ | w <;> rcases o.value.number with _ | n <;> simp

@[simp] theorem writeValue_rma_reg (z : OperandSize) (g : Reg) :
    writeValue .registerOrMemoryAddress z (.reg g) = .ok [] := rfl

@[simp] theorem writeValue_rma_addr (z : OperandSize) (a : Addr32) :
    writeValue .registerOrMemoryAddress z (.addr a) = .ok (bytesLe32 a) :=
  congrArg Except.ok (wU32_eq a)

/-- R74 (decision D14, log 20): an immediate that fits is written as an address. -/
theorem writeValue_rma_imm_of_lt (z : OperandSize) {n : Imm64} (h : n.toNat < 2 ^ 32) :
    writeValue .registerOrMemoryAddress z (.imm n) = .ok (bytesLe32 (n.truncate 32)) := by
  simp only [writeValue, writeRmaValue, rmaAddress, if_neg (Nat.not_le.mpr h), wU32_eq]

theorem writeValue_rma_imm_of_ge (z : OperandSize) {n : Imm64} (h : 2 ^ 32 ≤ n.toNat) :
    writeValue .registerOrMemoryAddress z (.imm n) = .error .invalidOperand := by
  simp only [writeValue, writeRmaValue, rmaAddress, if_pos h]

/-- R75, R76: a slot of any other method writes no value and checks none. -/
theorem writeValue_of_unused {m : AddressingMethod} (hn : numericMethod m = false) (ha : m ≠ .registerOrMemoryAddress)
    (z : OperandSize) (v : Value) : writeValue m z v = .ok [] ∧ encodeValue m z v = [] := by
  cases m with
  | memoryAddress | directAddress | immediateData => cases hn
  | registerOrMemoryAddress => exact absurd rfl ha
  | _ => exact ⟨rfl, rfl⟩

/-- R94(b) to (d), R95: a cause of a failure of the writer, with its kind. -/
inductive ValueFails (m : AddressingMethod) (z : OperandSize) (v : Value) : Failure → Prop where
  | size (hm : numericMethod m = true) (hz : z.width = none) : ValueFails m z v .unsupportedSize
  | register (hm : numericMethod m = true) {g : Reg} (hv : v = .reg g) : ValueFails m z v .invalidOperand
  | number (hm : numericMethod m = true) {w n : Nat} (hz : z.width = some w) (hv : v.number = some n)
      (hn : 2 ^ (8 * w) ≤ n) : ValueFails m z v .invalidOperand
  | address (hm : m = .registerOrMemoryAddress) {n : Imm64} (hv : v = .imm n) (hn : 2 ^ 32 ≤ n.toNat) :
      ValueFails m z v .invalidOperand

/-- What writing a value can do: fail for one of the causes, or append the bytes of the bit patterns. -/
theorem writeValue_cases (m : AddressingMethod) (z : OperandSize) (v : Value) :
    (∃ k, ValueFails m z v k ∧ writeValue m z v = .error k) ∨ writeValue m z v = .ok (encodeValue m z v) := by
  rcases hm : numericMethod m with _ | _
  · by_cases ha : m = .registerOrMemoryAddress
    · subst ha
      cases v with
      | reg g => exact .inr rfl
      | addr a => exact .inr (writeValue_rma_addr z a)
      | imm n =>
        rcases Nat.lt_or_ge n.toNat (2 ^ 32) with hn | hn
        · exact .inr (writeValue_rma_imm_of_lt z hn)
        · exact .inl ⟨_, .address rfl rfl hn, writeValue_rma_imm_of_ge z hn⟩
    · obtain ⟨hw, he⟩ := writeValue_of_unused hm ha z v
      exact .inr (by rw [hw, he])
  · rw [writeValue_of_numeric hm, encodeValue_of_numeric hm]
    rcases writeNumber_cases z v with ⟨hz, hw⟩ | ⟨w, hz, ⟨⟨g, hv⟩, hw⟩ | ⟨n, hv, ⟨hn, hw⟩ | ⟨hn, hw⟩⟩⟩
    · exact .inl ⟨_, .size hm hz, hw⟩
    · exact .inl ⟨_, .register hm hv, hw⟩
    · exact .inl ⟨_, .number hm hz hv hn, hw⟩
    · exact .inr (by rw [hw, hv]; rfl)

theorem writeValue_error_cause {m : AddressingMethod} {z : OperandSize} {v : Value} {k : Failure}
    (h : writeValue m z v = .error k) : ValueFails m z v k := by
  rcases writeValue_cases m z v with ⟨k', hk, hw⟩ | hw <;> rw [h] at hw <;> cases hw
  exact hk

/-! ### The operand of one slot (R78) -/

@[simp] theorem writeCorrection_eq (c : Correction) : writeCorrection c = encodeCorrection c := by
  cases c with
  | noCorr => rfl
  | short d => exact wI8_eq d
  | long d => exact wI32_eq d

theorem writeOperand_of_value_ok {m : AddressingMethod} {z : OperandSize} {o : Operand} {bs : List Byte}
    (h : writeValue m z o.value = .ok bs) : writeOperand m z o = .ok (bs ++ writeCorrection o.corr) := by
  simp [writeOperand, h]

theorem writeOperand_of_value_error {m : AddressingMethod} {z : OperandSize} {o : Operand} {k : Failure}
    (h : writeValue m z o.value = .error k) : writeOperand m z o = .error k := by
  simp [writeOperand, h]

@[simp] theorem writeSlot_none (m : AddressingMethod) (z : OperandSize) : writeSlot m z none = .ok [] := rfl

@[simp] theorem writeSlot_some (m : AddressingMethod) (z : OperandSize) (o : Operand) :
    writeSlot m z (some o) = writeOperand m z o := rfl

/-- What writing a slot can do. -/
theorem writeSlot_cases (m : AddressingMethod) (z : OperandSize) (op : Option Operand) :
    (∃ o k, op = some o ∧ ValueFails m z o.value k ∧ writeSlot m z op = .error k) ∨
      writeSlot m z op = .ok (encodeSlot m z op) := by
  rcases op with _ | o
  · exact .inr rfl
  rcases writeValue_cases m z o.value with ⟨k, hk, hw⟩ | hw
  · exact .inl ⟨o, k, rfl, hk, writeOperand_of_value_error hw⟩
  · exact .inr ((writeOperand_of_value_ok hw).trans (by rw [writeCorrection_eq]; rfl))

theorem writeSlot_ok_eq {m : AddressingMethod} {z : OperandSize} {op : Option Operand} {bs : List Byte}
    (h : writeSlot m z op = .ok bs) : bs = encodeSlot m z op := by
  rcases writeSlot_cases m z op with ⟨o, k, -, -, hw⟩ | hw <;> rw [h] at hw <;> cases hw
  rfl

theorem writeSlot_error_cause {m : AddressingMethod} {z : OperandSize} {op : Option Operand} {k : Failure}
    (h : writeSlot m z op = .error k) : ∃ o, op = some o ∧ ValueFails m z o.value k := by
  rcases writeSlot_cases m z op with ⟨o, k', ho, hk, hw⟩ | hw <;> rw [h] at hw <;> cases hw
  exact ⟨o, ho, hk⟩

/-! ### The slots that take their operands -/

/-- No cause of a failure is met: a slot takes its operand exactly when neither the resolver, if the opcode has a token,
nor the writer fails on it. -/
theorem slotOk_iff (hasToken : Bool) (m : AddressingMethod) (z : OperandSize) (o : Operand) :
    slotOk hasToken m z o = true ↔
      (hasToken = true → ∃ b, slotPart m z (some o) = .ok b) ∧ ∃ bs, writeSlot m z (some o) = .ok bs := by
  have hwrite : (∃ bs, writeSlot m z (some o) = .ok bs) ↔ ∃ bs, writeValue m z o.value = .ok bs := by
    rcases hw : writeValue m z o.value with k | bs
    · simp [writeOperand_of_value_error hw]
    · simp [writeOperand_of_value_ok hw]
  rw [hwrite]
  rcases hm : numericMethod m with _ | _
  · cases m with
    | memoryAddress | directAddress | immediateData => cases hm
    | registerOrMemoryAddress =>
      rcases o with ⟨v, c, ty⟩
      cases v with
      | reg g => simp [slotOk]
      | addr a => simp [slotOk]
      | imm n =>
        rcases Nat.lt_or_ge n.toNat (2 ^ 32) with hn | hn
        · simp [slotOk, writeValue_rma_imm_of_lt z hn]; omega
        · simp [slotOk, writeValue_rma_imm_of_ge z hn]; omega
    | register =>
      rcases o with ⟨v, c, ty⟩
      cases v <;> simp [slotOk, writeValue]
    | none | relativeOffset | other t =>
      simp [slotOk, writeValue, slotPart_of_other]
  · rw [slotOk_of_numeric hm, writeValue_of_numeric hm]
    have hpart : slotPart m z (some o) = .ok 0x00#8 := by
      rcases numericMethod_iff.mp hm with rfl | rfl | rfl <;> rfl
    simp only [hpart, Except.ok.injEq, exists_eq', implies_true, true_and]
    constructor
    · rintro ⟨w, n, hz, hv, hn⟩
      exact ⟨_, writeNumber_of_fits hz hv hn⟩
    · rintro ⟨bs, hbs⟩
      rcases writeNumber_cases z o.value with ⟨_, hw⟩ | ⟨w, hz, ⟨_, hw⟩ | ⟨n, hv, ⟨_, hw⟩ | ⟨hn, _⟩⟩⟩
      · cases hbs.symm.trans hw
      · cases hbs.symm.trans hw
      · cases hbs.symm.trans hw
      · exact ⟨w, n, hz, hv, hn⟩

/-! ### The obligations -/

/-- Settles O14. -/
theorem relativeOffsetWritesOnlyItsCorrection : Obligations.RelativeOffsetWritesOnlyItsCorrection :=
  ⟨fun _ => rfl, fun _ _ => writeOperand_of_value_ok (bs := []) rfl⟩

/-- Settles O15. -/
theorem unusedSlotsWriteOnlyTheirCorrection : Obligations.UnusedSlotsWriteOnlyTheirCorrection :=
  ⟨fun _ => rfl, fun _ _ _ =>
    ⟨writeOperand_of_value_ok (bs := []) rfl, writeOperand_of_value_ok (bs := []) rfl,
      writeOperand_of_value_ok (bs := []) rfl⟩⟩

/-- Settles O34: the four outcomes of a number's checks. -/
theorem numericWriteChecksSizeVariantRange : Obligations.NumericWriteChecksSizeVariantRange := by
  intro m z v hm
  rw [writeValue_of_numeric hm]
  refine ⟨fun hz => writeNumber_of_width_none hz v, fun w hz hv => writeNumber_of_number_none hz hv,
    fun w n hz hv hn => writeNumber_of_too_large hz hv hn, fun w n hz hv hn => ?_⟩
  rw [writeNumber_of_fits hz hv hn, encodeNumber_eq_leBytes hz hn, leBytes_eq_range]

/-- Settles O35: the three kinds of value. -/
theorem rmaValueIsFourBytesAtAnySize : Obligations.RmaValueIsFourBytesAtAnySize := fun z g a _ =>
  ⟨writeValue_rma_reg z g, writeValue_rma_addr z a, writeValue_rma_imm_of_lt z, writeValue_rma_imm_of_ge z⟩

/-- The four bytes of a word, read least significant first, are its number. -/
theorem bytesLe32_reads_back (v : BitVec 32) : ∃ b0 b1 b2 b3 : Byte, bytesLe32 v = [b0, b1, b2, b3] ∧
    b0.toNat + 256 * b1.toNat + 256 ^ 2 * b2.toNat + 256 ^ 3 * b3.toNat = v.toNat := by
  refine ⟨_, _, _, _, rfl, ?_⟩
  have hv := v.isLt
  simp only [BitVec.extractLsb'_toNat, Nat.shiftRight_eq_div_pow]
  omega

/-- Settles O36: a Dword that fits is its four bytes; one that does not is refused by the range check. -/
theorem dwordImmediateReadsBack : Obligations.DwordImmediateReadsBack := by
  refine fun n => ⟨fun hn => ?_, fun hn => writeNumber_of_too_large (w := 4) rfl rfl hn⟩
  obtain ⟨b0, b1, b2, b3, hb, hsum⟩ := bytesLe32_reads_back (BitVec.ofNat 32 n.toNat)
  refine ⟨b0, b1, b2, b3, ?_, ?_⟩
  · rw [writeNumber_of_fits (w := 4) rfl rfl hn]
    exact congrArg Except.ok hb
  · rw [hsum, BitVec.toNat_ofNat, Nat.mod_eq_of_lt hn]

end Sys2Proof.Machine
end

section
/-! Whole requests (42_encoder.md R81, R82): the phases as a chain from the last one back, what an idle block leaves of
a request, and exactly when it is Ok. -/

namespace Sys2Proof.Machine

/-! ### The phases, from the last one back -/

/-- One phase before the others: its failure ends the request, its bytes come before theirs (R97). -/
def thenPhase (out : Except Failure (List Byte)) (rest : List Byte × Option Failure) : List Byte × Option Failure :=
  match out with
  | .error k => ([], some k)
  | .ok bs => (bs ++ rest.1, rest.2)

@[simp] theorem thenPhase_error (k : Failure) (rest : List Byte × Option Failure) :
    thenPhase (.error k) rest = ([], some k) := rfl

@[simp] theorem thenPhase_ok (bs : List Byte) (rest : List Byte × Option Failure) :
    thenPhase (.ok bs) rest = (bs ++ rest.1, rest.2) := rfl

/-- What is left of a request in OP2 (R87): its bytes, and the failure that ends it. -/
def fromOp2 (r : Request) (v : Variant) : List Byte × Option Failure :=
  thenPhase (writeSlot v.method2 v.size2 r.eff2) ([], none)

/-- What is left of a request in OP1 (R86). -/
def fromOp1 (r : Request) (v : Variant) : List Byte × Option Failure :=
  thenPhase (writeSlot v.method1 v.size1 r.eff1) (fromOp2 r v)

/-- What is left of a request in TOKEN (R85). -/
def fromToken (r : Request) (v : Variant) : List Byte × Option Failure :=
  thenPhase (writeToken r.opcode.hasRegisterToken v r.eff1 r.eff2) (fromOp1 r v)

/-- What is left of a request in LOOKUP (R84). -/
def fromLookup (r : Request) : List Byte × Option Failure :=
  match r.variant with
  | none => ([], some .unsupportedMnemonic)
  | some v => fromToken r v

theorem fromLookup_of_variant {r : Request} {v : Variant} (hv : r.variant = some v) : fromLookup r = fromToken r v := by
  simp [fromLookup, hv]

theorem fromLookup_of_variant_none {r : Request} (hv : r.variant = none) :
    fromLookup r = ([], some .unsupportedMnemonic) := by
  simp [fromLookup, hv]

/-- R82: the phases of a request are OPC and then the rest. -/
theorem runPhases_eq (r : Request) : runPhases r = thenPhase (.ok (writeOpcode r.opcode)) (fromLookup r) := by
  rcases runPhases_cases r with ⟨hv, hp⟩ |
      ⟨v, hv, ⟨k, hk, hp⟩ | ⟨tok, htok, ⟨k, hk, hp⟩ | ⟨b1, h1, ⟨k, hk, hp⟩ | ⟨b2, h2, hp⟩⟩⟩⟩
  · simp [hp, fromLookup_of_variant_none hv]
  · simp [hp, fromLookup_of_variant hv, fromToken, hk]
  · simp [hp, fromLookup_of_variant hv, fromToken, htok, fromOp1, hk]
  · simp [hp, fromLookup_of_variant hv, fromToken, htok, fromOp1, h1, fromOp2, hk]
  · simp [hp, fromLookup_of_variant hv, fromToken, htok, fromOp1, h1, fromOp2, h2]

/-! ### How a request ends -/

/-- The end of a request with these bytes still to append and this failure, if one ends it (R88, R96). -/
def State.settle (s : State) (out : List Byte × Option Failure) : State :=
  { s with sink := s.sink ++ out.1, inFlight := none, result := some (.ofFailure out.2) }

/-- Bytes appended now are bytes that are no longer to come. -/
theorem State.settle_append (s : State) (bs : List Byte) (out : List Byte × Option Failure) :
    (s.append bs).settle out = s.settle (bs ++ out.1, out.2) := by
  simp [State.settle, State.append]

theorem State.settle_raise (s : State) (k : Failure) : s.settle ([], some k) = s.raise k := by
  simp [State.settle, State.raise, RequestResult.ofFailure]

theorem State.settle_complete (s : State) : s.settle ([], none) = s.complete := by
  simp [State.settle, State.complete, RequestResult.ofFailure]

/-- The end of a request on an idle block touches the sink and the result alone. -/
theorem State.settle_of_idle {s : State} (hf : s.inFlight = none) (out : List Byte × Option Failure) :
    s.settle out = { s with sink := s.sink ++ out.1, result := some (.ofFailure out.2) } := by
  simp [State.settle, hf]

/-- R81, R82: an admitted request on an idle block runs its phases to their end. -/
theorem transact_eq_settle {r : Request} {s : State} (hf : s.inFlight = none) (hw : r.opcode.wf = true) :
    transact r s = s.settle (runPhases r) := by
  have ha : admission s.inFlight.isSome r = none := by simpa [hf] using (admission_idle_iff r).mpr hw
  rcases transact_cases r s with ⟨_, hr, _⟩ | ⟨_, hk, h⟩ | ⟨k, _, hk, h⟩
  · simp [ha] at hr
  · simp [h, ← State.settle_complete, State.settle_append, ← hk]
  · simp [h, ← State.settle_raise, State.settle_append, ← hk]

theorem exec_encode_of_wf {r : Request} {s : State} (hf : s.inFlight = none) (hw : r.opcode.wf = true) :
    exec (.encode r) s = .next { s with
      sink := s.sink ++ (runPhases r).1
      result := some (.ofFailure (runPhases r).2) } := by
  rw [← State.settle_of_idle hf, ← transact_eq_settle hf hw]
  rfl

/-- A row that is a request does what its request does. -/
theorem exec_request {i : Instr} {r : Request} (h : placedRequest i = some r) (s : State) :
    exec i s = .next (transact r s) := by
  cases i with
  | encode r' => cases h; rfl
  | add o1 o2 => cases h; rfl
  | _ => cases h

theorem exec_add_eq_exec_encode (o1 o2 : Option Operand) (s : State) :
    exec (.add o1 o2) s = exec (.encode (addRequest o1 o2)) s := rfl

/-! ### When a request is Ok -/

theorem writeToken_false (v : Variant) (e1 e2 : Option Operand) : writeToken false v e1 e2 = .ok [] := rfl

theorem writeToken_of_error {v : Variant} {e1 e2 : Option Operand} {k : Failure}
    (h : computeToken v e1 e2 = .error k) : writeToken true v e1 e2 = .error k := by
  simp [writeToken, h]

theorem writeToken_of_ok {v : Variant} {e1 e2 : Option Operand} {tok : Byte} (h : computeToken v e1 e2 = .ok tok) :
    writeToken true v e1 e2 = .ok [tok] := by
  simp [writeToken, h]

theorem computeToken_of_writeToken_error {hasToken : Bool} {v : Variant} {e1 e2 : Option Operand} {k : Failure}
    (h : writeToken hasToken v e1 e2 = .error k) : hasToken = true ∧ computeToken v e1 e2 = .error k := by
  cases hasToken with
  | false => cases h
  | true =>
    rcases hc : computeToken v e1 e2 with k' | tok
    · rw [writeToken_of_error hc] at h
      cases h
      exact ⟨rfl, rfl⟩
    · rw [writeToken_of_ok hc] at h
      cases h

/-- R46: the token's place in the layout. -/
theorem writeToken_ok_eq {hasToken : Bool} {v : Variant} {e1 e2 : Option Operand} {bs : List Byte}
    (h : writeToken hasToken v e1 e2 = .ok bs) : bs = if hasToken then [encodeToken v e1 e2] else [] := by
  cases hasToken with
  | false => cases h; rfl
  | true =>
    rcases hc : computeToken v e1 e2 with k | tok
    · rw [writeToken_of_error hc] at h
      cases h
    · rw [writeToken_of_ok hc] at h
      cases h
      simp [computeToken_eq_encodeToken hc]

theorem writeToken_ok_iff (hasToken : Bool) (v : Variant) (e1 e2 : Option Operand) :
    (∃ bs, writeToken hasToken v e1 e2 = .ok bs) ↔
      (hasToken = true →
        (∃ a, slotPart v.method1 v.size1 e1 = .ok a) ∧ ∃ b, slotPart v.method2 v.size2 e2 = .ok b) := by
  cases hasToken with
  | false => simp [writeToken_false]
  | true =>
    rcases h1 : slotPart v.method1 v.size1 e1 with k | a
    · simp [writeToken_of_error (computeToken_error_first h1)]
    rcases h2 : slotPart v.method2 v.size2 e2 with k | b
    · simp [writeToken_of_error (computeToken_error_second h1 h2)]
    · simp [writeToken_of_ok (computeToken_ok h1 h2)]

/-- A slot with its operand, or with none, takes what it has exactly when nothing in it fails. -/
theorem slotTakes_iff (hasToken : Bool) (m : AddressingMethod) (z : OperandSize) (op : Option Operand) :
    (∀ o, op = some o → slotOk hasToken m z o = true) ↔
      (hasToken = true → ∃ b, slotPart m z op = .ok b) ∧ ∃ bs, writeSlot m z op = .ok bs := by
  cases op with
  | none => simp
  | some o => simpa only [Option.some.injEq, forall_eq'] using slotOk_iff hasToken m z o

theorem slot1Ok_iff {r : Request} {v : Variant} (hv : r.variant = some v) :
    r.slot1Ok = true ↔ ∀ o, r.eff1 = some o → slotOk r.opcode.hasRegisterToken v.method1 v.size1 o = true := by
  simp only [Request.slot1Ok, hv]
  cases r.eff1 <;> simp

theorem slot2Ok_iff {r : Request} {v : Variant} (hv : r.variant = some v) :
    r.slot2Ok = true ↔ ∀ o, r.eff2 = some o → slotOk r.opcode.hasRegisterToken v.method2 v.size2 o = true := by
  simp only [Request.slot2Ok, hv]
  cases r.eff2 <;> simp

/-- R82: a request that selects a variant is Ok when each of its phases is. -/
theorem runPhases_ok_iff_phases {r : Request} {v : Variant} (hv : r.variant = some v) :
    (runPhases r).2 = none ↔ (∃ tok, writeToken r.opcode.hasRegisterToken v r.eff1 r.eff2 = .ok tok) ∧
      (∃ b1, writeSlot v.method1 v.size1 r.eff1 = .ok b1) ∧ ∃ b2, writeSlot v.method2 v.size2 r.eff2 = .ok b2 := by
  rw [runPhases_eq, fromLookup_of_variant hv, fromToken, fromOp1, fromOp2]
  rcases writeToken r.opcode.hasRegisterToken v r.eff1 r.eff2 with k | tok
  · simp
  rcases writeSlot v.method1 v.size1 r.eff1 with k | b1
  · simp
  rcases writeSlot v.method2 v.size2 r.eff2 with k | b2 <;> simp

/-- R91 to R95: a request that selects a variant is Ok exactly when both slots take their operands. -/
theorem runPhases_ok_iff {r : Request} {v : Variant} (hv : r.variant = some v) :
    (runPhases r).2 = none ↔ r.slot1Ok = true ∧ r.slot2Ok = true := by
  rw [runPhases_ok_iff_phases hv, slot1Ok_iff hv, slot2Ok_iff hv, slotTakes_iff, slotTakes_iff, writeToken_ok_iff]
  tauto

/-- R46: the bytes of a request that is Ok are its layout. -/
theorem runPhases_bytes_of_ok {r : Request} {v : Variant} (hw : r.opcode.wf = true) (hv : r.variant = some v)
    (h : (runPhases r).2 = none) : (runPhases r).1 = encodeRequest r := by
  obtain ⟨⟨tok, ht⟩, ⟨b1, h1⟩, b2, h2⟩ := (runPhases_ok_iff_phases hv).mp h
  have hbytes : (runPhases r).1 = r.opcode.bytes ++ (tok ++ (b1 ++ b2)) := by
    simp [runPhases_eq, fromLookup_of_variant hv, fromToken, ht, fromOp1, h1, fromOp2, h2, writeOpcode_of_wf hw]
  rw [hbytes, writeToken_ok_eq ht, writeSlot_ok_eq h1, writeSlot_ok_eq h2]
  simp [encodeRequest, hv]

/-- R88: a request whose slots take its operands appends its layout and is Ok. -/
theorem exec_encode_of_paired {r : Request} {v : Variant} {s : State} (hf : s.inFlight = none)
    (hw : r.opcode.wf = true) (hv : r.variant = some v) (h1 : r.slot1Ok = true) (h2 : r.slot2Ok = true) :
    exec (.encode r) s = .next { s with sink := s.sink ++ encodeRequest r, result := some .ok } := by
  have hok := (runPhases_ok_iff hv).mpr ⟨h1, h2⟩
  rw [exec_encode_of_wf hf hw, runPhases_bytes_of_ok hw hv hok, hok]
  rfl

/-- R84: a declared mnemonic of a well-formed opcode selects a variant. -/
theorem exists_variant_of_declared {r : Request} (hw : r.opcode.wf = true) (hd : r.declared = true) :
    ∃ v, r.variant = some v := by
  rw [← Option.ne_none_iff_exists', ne_eq, variant_eq_none_iff hw]
  simpa [Request.declared] using hd

/-! ### The obligations -/

/-- Settles O9: the row by `exec_row`; the first phase of a request is OPC. -/
theorem opcRowAppendsTheOpcodeByte : Obligations.OpcRowAppendsTheOpcodeByte := by
  refine ⟨fun b s => exec_row rfl s, fun r b s hf hw hb => ⟨_, (fromLookup r).1, exec_encode_of_wf hf hw, ?_⟩⟩
  simp [runPhases_eq, writeOpcode_of_wf hw, hb]

theorem addOpCode_wf : addOpCode.wf = true := rfl

/-- The slots of R56. -/
def addVariant : Variant := ⟨.registerOrMemoryAddress, .dword, .register, .dword⟩

@[simp] theorem addRequest_variant (o1 o2 : Option Operand) : (addRequest o1 o2).variant = some addVariant := rfl

/-- Settles O17: ENCODE, and ADD as the request it stands for. -/
theorem pairedRequestAppendsItsLayout : Obligations.PairedRequestAppendsItsLayout := by
  refine ⟨fun r s hf hw hd h1 h2 => ?_, fun o1 o2 s hf h1 h2 => ?_⟩
  · obtain ⟨v, hv⟩ := exists_variant_of_declared hw hd
    exact exec_encode_of_paired hf hw hv h1 h2
  · exact exec_encode_of_paired hf addOpCode_wf (addRequest_variant o1 o2) h1 h2

/-- Settles O18: the phases before the failing one have left their bytes. -/
theorem failedRequestKeepsItsPrefix : Obligations.FailedRequestKeepsItsPrefix := by
  intro r b s hf hw hb failed
  have hend {bs : List Byte} {k : Failure} (hrest : fromLookup r = (bs, some k)) :
      exec (.encode r) s = .next (failed ([b] ++ bs) k) := by
    rw [exec_encode_of_wf hf hw, runPhases_eq, hrest, writeOpcode_of_wf hw, hb]
    rfl
  refine ⟨fun hd => ?_, fun v hv => ⟨fun k htok herr => ?_, fun tok htok => ⟨fun k herr => ?_, fun b1 k h1 herr => ?_⟩⟩⟩
  · have hv : r.variant = none := (variant_eq_none_iff hw).mpr (by simpa [Request.declared] using hd)
    exact hend (fromLookup_of_variant_none hv)
  · exact hend (by rw [fromLookup_of_variant hv, fromToken, htok, writeToken_of_error herr, thenPhase_error])
  · rw [hend (bs := tok) (k := k)]
    simp [fromLookup_of_variant hv, fromToken, htok, fromOp1, herr]
  · rw [hend (bs := tok ++ b1) (k := k), List.append_assoc]
    simp [fromLookup_of_variant hv, fromToken, htok, fromOp1, h1, fromOp2, herr]

/-- Settles O23. -/
theorem requestSucceedsExactlyWhenPaired : Obligations.RequestSucceedsExactlyWhenPaired := by
  intro r s hf hw hd
  obtain ⟨v, hv⟩ := exists_variant_of_declared hw hd
  refine ⟨_, exec_encode_of_wf hf hw, ?_⟩
  rw [← runPhases_ok_iff hv]
  cases (runPhases r).2 <;> simp [RequestResult.ofFailure]

theorem admission_of_multiByte {r : Request} (h : r.opcode.bytes.length ≠ 1) :
    admission false r = some .multiByteOpcode := by
  simp [admission, h]

theorem admission_of_not_parallel {r : Request} (hb : r.opcode.bytes.length = 1) (hp : r.opcode.parallel = false) :
    admission false r = some .malformedMetadata := by
  rcases admission_idle_cases r with h | ⟨-, h⟩ | ⟨h, -⟩
  · obtain ⟨-, hpar⟩ := OpCode.wf_iff.mp ((admission_idle_iff r).mp h)
    simp [hp] at hpar
  · exact absurd hb h
  · exact h

theorem transact_of_refused {r : Request} {s : State} {why : RefusalReason} (hf : s.inFlight = none)
    (h : admission false r = some why) : transact r s = s.refuse why := by
  simp [transact, hf, h]

/-- Settles O24: the three refusals by their admission. -/
theorem inadmissibleRequestsAreRefused : Obligations.InadmissibleRequestsAreRefused := by
  have hbusy {r : Request} {s : State} (h : s.inFlight ≠ none) : transact r s = s.refuse .sharedSink := by
    obtain ⟨t, ht⟩ := Option.ne_none_iff_exists'.mp h
    exact transact_of_busy ht r
  exact fun r s => ⟨fun h => congrArg _ (hbusy h), fun h o1 o2 => congrArg _ (hbusy h),
    fun hf hb => congrArg _ (transact_of_refused hf (admission_of_multiByte hb)),
    fun hf hb hp => congrArg _ (transact_of_refused hf (admission_of_not_parallel hb hp))⟩

/-- R25: every earlier byte of the sink reads as before a transaction, and none is taken away. -/
theorem transact_keeps_bytes (r : Request) (s : State) :
    (∀ p, p < s.pos → (transact r s).byteAt p = s.byteAt p) ∧ s.pos ≤ (transact r s).pos := by
  obtain ⟨bs, hbs⟩ := transact_sink r s
  simp only [State.byteAt, State.pos, hbs, List.length_append]
  exact ⟨fun p hp => List.getElem?_append_left hp, Nat.le_add_right _ _⟩

/-- Settles O25: the frame of a transaction, by how it ends. -/
theorem requestRowsAppendAndLeaveTheRest : Obligations.RequestRowsAppendAndLeaveTheRest := by
  intro i s hi
  obtain ⟨r, hr⟩ := Option.ne_none_iff_exists'.mp hi
  obtain ⟨hbytes, hpos⟩ := transact_keeps_bytes r s
  refine ⟨transact r s, exec_request hr s, hbytes, hpos, transact_inbox r s, transact_inFlight r s, ?_⟩
  rcases transact_cases r s with ⟨why, -, h⟩ | ⟨-, -, h⟩ | ⟨k, -, -, h⟩ <;> rw [h]
  · exact .inr ⟨why, rfl⟩
  · exact .inl ⟨rfl, .inl rfl⟩
  · exact .inl ⟨rfl, .inr ⟨k, rfl⟩⟩

/-- Settles O26: admission and the phases read the request alone. -/
theorem requestOutcomeIsItsOwnFunction : Obligations.RequestOutcomeIsItsOwnFunction := by
  intro r
  rcases ha : admission false r with _ | why
  · have hw := (admission_idle_iff r).mp ha
    refine ⟨(runPhases r).1, .ofFailure (runPhases r).2, fun s hf => ?_⟩
    rw [exec_encode_of_wf hf hw]
    cases (runPhases r).2 <;> simp [RequestResult.ofFailure]
  · refine ⟨[], .refused why, fun s hf => ?_⟩
    rw [exec_request rfl, transact_of_refused hf ha]
    simp [State.refuse]

/-- A request is read through its admission and its phases alone. -/
theorem exec_encode_congr {r r' : Request} (ho : r.opcode = r'.opcode) (hp : runPhases r = runPhases r') (s : State) :
    exec (.encode r) s = exec (.encode r') s := by
  refine congrArg Host.Outcome.next ?_
  simp only [transact, admission, ho, hp]

/-- Settles O27: the phases read operand 2 through its effective operand alone. -/
theorem operandTwoNeedsOperandOne : Obligations.OperandTwoNeedsOperandOne :=
  fun _ _ _ s => ⟨exec_encode_congr rfl rfl s, exec_encode_congr (r := addRequest none _) rfl rfl s⟩

/-- R74, R76 (decision D13, log 20): which register a slot holds is of no matter to the writer. -/
theorem writeSlot_reg_congr (m : AddressingMethod) (z : OperandSize) (g g' : Reg) (c : Correction)
    (ty : OperandType) : writeSlot m z (some ⟨.reg g, c, ty⟩) = writeSlot m z (some ⟨.reg g', c, ty⟩) := by
  cases m <;> rfl

/-- Without a token the phases read the operands through the writer alone. -/
theorem runPhases_congr_of_no_token {o : OpCode} {m : Mnemonic} {x1 x1' x2 x2' : Option Operand}
    (ho : o.hasRegisterToken = false)
    (h1 : ∀ n z, writeSlot n z (Request.eff1 ⟨o, m, x1, x2⟩) = writeSlot n z (Request.eff1 ⟨o, m, x1', x2'⟩))
    (h2 : ∀ n z, writeSlot n z (Request.eff2 ⟨o, m, x1, x2⟩) = writeSlot n z (Request.eff2 ⟨o, m, x1', x2'⟩)) :
    runPhases ⟨o, m, x1, x2⟩ = runPhases ⟨o, m, x1', x2'⟩ := by
  have hvar : (⟨o, m, x1, x2⟩ : Request).variant = (⟨o, m, x1', x2'⟩ : Request).variant := rfl
  simp only [runPhases_eq, fromLookup, fromToken, fromOp1, fromOp2, ho, writeToken_false, h1, h2, hvar]

/-- Settles O28: the register in slot 1, and in slot 2 where it is effective. -/
theorem registerWithoutTokenIsEncodedNowhere : Obligations.RegisterWithoutTokenIsEncodedNowhere := by
  refine fun o m g g' c ty x s ho => ⟨exec_encode_congr (Eq.refl o) ?_ s, exec_encode_congr (Eq.refl o) ?_ s⟩
  · exact runPhases_congr_of_no_token ho (fun n z => writeSlot_reg_congr n z g g' c ty) fun n z => rfl
  · refine runPhases_congr_of_no_token ho (fun n z => rfl) fun n z => ?_
    cases x with
    | none => rfl
    | some o1 => exact writeSlot_reg_congr n z g g' c ty

/-- Settles O37: the library's least index. -/
theorem lookupFindsTheLeastIndex : Obligations.LookupFindsTheLeastIndex := by
  refine fun l x => ⟨fun j => ?_, firstIndex_eq_none_iff⟩
  rw [firstIndex_eq_idxOf?, List.idxOf?_eq_some_iff, List.getElem?_eq_some_iff]
  constructor
  · rintro ⟨hj, hx, hleast⟩
    refine ⟨⟨hj, hx⟩, fun k hk hkx => ?_⟩
    obtain ⟨_, heq⟩ := List.getElem?_eq_some_iff.mp hkx
    exact hleast k hk heq
  · rintro ⟨⟨hj, hx⟩, hleast⟩
    exact ⟨hj, hx, fun k hk heq => hleast k hk (List.getElem?_eq_some_iff.mpr ⟨hk.trans hj, heq⟩)⟩

/-- Settles O38: the five codes, and a refusal's none. -/
theorem resultCodesAreDistinct : Obligations.ResultCodesAreDistinct :=
  ⟨rfl, rfl, rfl, rfl, rfl, fun _ => rfl⟩

end Sys2Proof.Machine
end

section
/-! The layout of a successful request (30_encoding.md R46, R47): its length, and ADD's and a register pair's bytes
written out (95_test_vectors.md). -/

namespace Sys2Proof.Machine

/-! ### The layout of a request that selects a variant -/

theorem encodeRequest_of_variant {r : Request} {v : Variant} (hv : r.variant = some v) :
    encodeRequest r = r.opcode.bytes ++ (if r.opcode.hasRegisterToken then [encodeToken v r.eff1 r.eff2] else []) ++
      encodeSlot v.method1 v.size1 r.eff1 ++ encodeSlot v.method2 v.size2 r.eff2 := by
  simp [encodeRequest, hv]

@[simp] theorem encodeSlot_none (m : AddressingMethod) (z : OperandSize) : encodeSlot m z none = [] := rfl

@[simp] theorem encodeSlot_register (z : OperandSize) (o : Operand) :
    encodeSlot .register z (some o) = encodeCorrection o.corr := by
  simp [encodeSlot, encodeValue]

@[simp] theorem encodeSlot_rma_reg (z : OperandSize) (g : Reg) (c : Correction) (ty : OperandType) :
    encodeSlot .registerOrMemoryAddress z (some ⟨.reg g, c, ty⟩) = encodeCorrection c := by
  simp [encodeSlot, encodeValue]

@[simp] theorem encodeSlot_rma_addr (z : OperandSize) (a : Addr32) (c : Correction) (ty : OperandType) :
    encodeSlot .registerOrMemoryAddress z (some ⟨.addr a, c, ty⟩) = bytesLe32 a ++ encodeCorrection c := rfl

@[simp] theorem eff1_mk (o : OpCode) (m : Mnemonic) (x1 x2 : Option Operand) :
    Request.eff1 ⟨o, m, x1, x2⟩ = x1 := rfl

@[simp] theorem eff2_mk_some (o : OpCode) (m : Mnemonic) (o1 : Operand) (x2 : Option Operand) :
    Request.eff2 ⟨o, m, some o1, x2⟩ = x2 := rfl

@[simp] theorem eff2_mk_none (o : OpCode) (m : Mnemonic) (x2 : Option Operand) :
    Request.eff2 ⟨o, m, none, x2⟩ = none := rfl

/-! ### Lengths (R47) -/

theorem encodeNumber_length (z : OperandSize) (n : Nat) : (encodeNumber z n).length = z.width.getD 0 := by
  cases z <;> rfl

theorem encodeValue_length (m : AddressingMethod) (z : OperandSize) (v : Value) :
    (encodeValue m z v).length = valueLength m z v := by
  rcases hm : numericMethod m with _ | _
  · by_cases ha : m = .registerOrMemoryAddress
    · subst ha
      cases v <;> rfl
    · simp [(writeValue_of_unused hm ha z v).2, valueLength, hm, ha]
  · simp [encodeValue_of_numeric hm, encodeNumber_length, valueLength, hm]

theorem encodeCorrection_length (c : Correction) : (encodeCorrection c).length = correctionLength c := by
  cases c <;> rfl

theorem encodeSlot_length (m : AddressingMethod) (z : OperandSize) (op : Option Operand) :
    (encodeSlot m z op).length = ((op.map fun o => (m, z, o)).toList.map slotLength).sum := by
  cases op <;> simp [encodeSlot, encodeValue_length, encodeCorrection_length, slotLength]

theorem encodeRequest_length {r : Request} {v : Variant} (hw : r.opcode.wf = true) (hv : r.variant = some v) :
    (encodeRequest r).length =
      1 + (if r.opcode.hasRegisterToken then 1 else 0) + ((requestSlots r).map slotLength).sum := by
  obtain ⟨hb, -⟩ := OpCode.wf_iff.mp hw
  have htok : (if r.opcode.hasRegisterToken then [encodeToken v r.eff1 r.eff2] else []).length =
      if r.opcode.hasRegisterToken then 1 else 0 := by
    split <;> rfl
  have hslots : ((requestSlots r).map slotLength).sum =
      (encodeSlot v.method1 v.size1 r.eff1).length + (encodeSlot v.method2 v.size2 r.eff2).length := by
    simp [requestSlots, requestSlot1, requestSlot2, hv, encodeSlot_length]
  simp only [encodeRequest_of_variant hv, List.length_append, hb, htok, hslots]
  omega

/-- R47: the longest encoding has 18 bytes. -/
theorem encodeRequest_length_le_of_wf {r : Request} {v : Variant} (hw : r.opcode.wf = true)
    (hv : r.variant = some v) : (encodeRequest r).length ≤ 18 := by
  obtain ⟨hb, -⟩ := OpCode.wf_iff.mp hw
  have h1 := Laws.Length.encodeSlot_length_le v.method1 v.size1 r.eff1
  have h2 := Laws.Length.encodeSlot_length_le v.method2 v.size2 r.eff2
  have ht : (if r.opcode.hasRegisterToken then [encodeToken v r.eff1 r.eff2] else []).length ≤ 1 := by
    split <;> simp
  simp only [encodeRequest_of_variant hv, List.length_append, hb]
  omega

/-- Settles O33: the layout's length is the sum of its parts'. -/
theorem encodingLengthFollowsTheMetadata : Obligations.EncodingLengthFollowsTheMetadata := by
  intro r s hf hw hd h1 h2
  obtain ⟨v, hv⟩ := exists_variant_of_declared hw hd
  have hle := encodeRequest_length_le_of_wf hw hv
  have hlen := encodeRequest_length hw hv
  refine ⟨_, exec_encode_of_paired hf hw hv h1 h2, ?_⟩
  simp only [State.pos, List.length_append]
  omega

/-! ### A register pair (W4, C1) -/

/-- The token of a register pair as the OR of its parts. -/
theorem pairToken_eq (a b : Reg) :
    (a.zeroExtend 8 <<< 3) ||| 0xC0#8 ||| b.zeroExtend 8 = tokenBits 3#2 a b := by
  revert a b
  decide

theorem encodeToken_register_rma {v : Variant} (hm1 : v.method1 = .register)
    (hm2 : v.method2 = .registerOrMemoryAddress) (a b : Reg) (c c' : Correction) (ty ty' : OperandType) :
    encodeToken v (some ⟨.reg a, c, ty⟩) (some ⟨.reg b, c', ty'⟩) =
      tokenBits (Operand.modBitsField ⟨.reg b, c', ty'⟩) a b := by
  simp [encodeToken, hm1, hm2, slotMod, slotReg, slotRm]

theorem encodeToken_rma_register {v : Variant} (hm1 : v.method1 = .registerOrMemoryAddress)
    (hm2 : v.method2 = .register) (a b : Reg) (c c' : Correction) (ty ty' : OperandType) :
    encodeToken v (some ⟨.reg b, c', ty'⟩) (some ⟨.reg a, c, ty⟩) =
      tokenBits (Operand.modBitsField ⟨.reg b, c', ty'⟩) a b := by
  simp [encodeToken, hm1, hm2, slotMod, slotReg, slotRm]

/-- A register is taken by a `Register` slot and by an RMA slot. -/
theorem slotOk_reg {m : AddressingMethod} (hm : m = .register ∨ m = .registerOrMemoryAddress) (hasToken : Bool)
    (z : OperandSize) (g : Reg) (c : Correction) (ty : OperandType) : slotOk hasToken m z ⟨.reg g, c, ty⟩ = true := by
  rcases hm with rfl | rfl <;> rfl

/-- Settles O29: the two orders of the slots. -/
theorem registerPairTokenIsRegisterOnly : Obligations.RegisterPairTokenIsRegisterOnly := by
  intro o m v byte a b c ty s hf hw hb htok token ended regOp rmaOp
  have htoken : token = tokenBits 3#2 a b := pairToken_eq a b
  refine ⟨fun hm1 hm2 hv => ?_, fun hm1 hm2 hv => ?_⟩
  · have h1 := (slot1Ok_iff hv).mpr fun x hx => by cases hx; exact slotOk_reg (.inl hm1) ..
    have h2 := (slot2Ok_iff hv).mpr fun x hx => by cases hx; exact slotOk_reg (.inr hm2) ..
    rw [exec_encode_of_paired hf hw hv h1 h2, encodeRequest_of_variant hv, htoken, writeCorrection_eq, hm1, hm2]
    simp [regOp, rmaOp, ended, hb, htok, encodeToken_register_rma hm1 hm2, Operand.modBitsField, encodeCorrection]
  · have h1 := (slot1Ok_iff hv).mpr fun x hx => by cases hx; exact slotOk_reg (.inr hm1) ..
    have h2 := (slot2Ok_iff hv).mpr fun x hx => by cases hx; exact slotOk_reg (.inl hm2) ..
    rw [exec_encode_of_paired hf hw hv h1 h2, encodeRequest_of_variant hv, htoken, writeCorrection_eq, hm1, hm2]
    simp [regOp, rmaOp, ended, hb, htok, encodeToken_rma_register hm1 hm2, Operand.modBitsField, encodeCorrection]

/-! ### ADD (W1, W2, W6) -/

/-- ADD with an operand 1 that is no immediate and an operand 2 that, where it is effective, is a register. -/
theorem exec_add_of_paired {o1 o2 : Option Operand} {s : State} (hf : s.inFlight = none)
    (h1 : ∀ o, o1 = some o → ∀ n, o.value ≠ .imm n)
    (h2 : ∀ o, (addRequest o1 o2).eff2 = some o → ∃ g, o.value = .reg g) :
    exec (.add o1 o2) s = .next { s with
      sink := s.sink ++ ([0x01#8, encodeToken addVariant o1 (addRequest o1 o2).eff2] ++
        encodeSlot .registerOrMemoryAddress .dword o1 ++ encodeSlot .register .dword (addRequest o1 o2).eff2)
      result := some .ok } := by
  have hv := addRequest_variant o1 o2
  have hs1 : (addRequest o1 o2).slot1Ok = true := by
    refine (slot1Ok_iff hv).mpr fun o ho => ?_
    rcases o with ⟨_ | _ | n, c, ty⟩
    · rfl
    · rfl
    · exact absurd rfl (h1 _ ho n)
  have hs2 : (addRequest o1 o2).slot2Ok = true := by
    refine (slot2Ok_iff hv).mpr fun o ho => ?_
    obtain ⟨g, hg⟩ := h2 o ho
    simp [slotOk, addVariant, hg]
  rw [exec_add_eq_exec_encode, exec_encode_of_paired hf addOpCode_wf hv hs1 hs2, encodeRequest_of_variant hv]
  rfl

/-- ADD with two registers: the token of their codes, then the two corrections. -/
theorem exec_add_reg_reg {s : State} (hf : s.inFlight = none) (b g : Reg) (c c' : Correction)
    (ty ty' : OperandType) :
    exec (.add (some ⟨.reg b, c, ty⟩) (some ⟨.reg g, c', ty'⟩)) s = .next { s with
      sink := s.sink ++ ([0x01#8, tokenBits (Operand.modBitsField ⟨.reg b, c, ty⟩) g b] ++ encodeCorrection c ++
        encodeCorrection c')
      result := some .ok } := by
  rw [exec_add_of_paired hf (by simp) (by simp [addRequest])]
  simp only [addRequest, eff2_mk_some, encodeToken_rma_register (v := addVariant) rfl rfl, encodeSlot_rma_reg,
    encodeSlot_register]

/-- ADD with a register alone: the reg field is 0 (E28). -/
theorem exec_add_reg_none {s : State} (hf : s.inFlight = none) (b : Reg) (c : Correction) (ty : OperandType) :
    exec (.add (some ⟨.reg b, c, ty⟩) none) s = .next { s with
      sink := s.sink ++ ([0x01#8, tokenBits (Operand.modBitsField ⟨.reg b, c, ty⟩) 0#3 b] ++ encodeCorrection c)
      result := some .ok } := by
  rw [exec_add_of_paired hf (by simp) (by simp [addRequest])]
  simp [addRequest, encodeToken, addVariant, slotMod, slotReg_of_ne, slotRm]

/-- ADD with no operand 1: the token is 0x00 (E29). -/
theorem exec_add_none {s : State} (hf : s.inFlight = none) (x : Option Operand) :
    exec (.add none x) s = .next { s with sink := s.sink ++ [0x01#8, 0x00#8], result := some .ok } := by
  rw [exec_add_of_paired hf (by simp) (by simp [addRequest])]
  simp [addRequest, encodeToken]

/-- ADD with an address and a register: the fallback token, the address, then the two corrections. -/
theorem exec_add_addr_reg {s : State} (hf : s.inFlight = none) (a : Addr32) (g : Reg) (c c' : Correction)
    (ty ty' : OperandType) :
    exec (.add (some ⟨.addr a, c, ty⟩) (some ⟨.reg g, c', ty'⟩)) s = .next { s with
      sink := s.sink ++ ([0x01#8, tokenBits 0#2 g 5#3] ++ bytesLe32 a ++ encodeCorrection c ++ encodeCorrection c')
      result := some .ok } := by
  rw [exec_add_of_paired hf (by simp) (by simp [addRequest])]
  simp [addRequest, encodeToken, addVariant, slotMod, slotReg, slotRm, Operand.modBitsField]

/-- Settles O30: the register forms of operand 1, and the absent operands. -/
theorem addEncodesRegisterForms : Obligations.AddEncodesRegisterForms := fun b g d l ty ty' _ hf =>
  ⟨exec_add_reg_reg hf b g .noCorr .noCorr .normal ty', exec_add_reg_reg hf b g .noCorr .noCorr .dereferenced ty',
    exec_add_reg_reg hf b g (.short d) .noCorr ty ty', exec_add_reg_reg hf b g (.long l) .noCorr ty ty',
    exec_add_reg_none hf b .noCorr .normal, exec_add_none hf _⟩

/-- Settles O31: the address, and the register whose token is the same. -/
theorem addEncodesAddressWithFallbackToken : Obligations.AddEncodesAddressWithFallbackToken := by
  intro a g c c' ty ty' s hf op2 ended
  constructor
  · rw [exec_add_addr_reg hf, writeCorrection_eq, writeCorrection_eq]
    rfl
  · rw [exec_add_reg_reg hf, writeCorrection_eq]
    rfl

/-- A failure in phase TOKEN leaves the opcode byte. -/
theorem exec_add_of_token_error {o1 o2 : Option Operand} {s : State} {k : Failure} (hf : s.inFlight = none)
    (h : computeToken addVariant o1 (addRequest o1 o2).eff2 = .error k) :
    exec (.add o1 o2) s = .next { s with sink := s.sink ++ [0x01#8], result := some (.fault k) } := by
  obtain ⟨-, hvar⟩ := failedRequestKeepsItsPrefix (addRequest o1 o2) 0x01#8 s hf addOpCode_wf rfl
  obtain ⟨htoken, -⟩ := hvar addVariant (addRequest_variant o1 o2)
  exact htoken k rfl h

/-- Settles O32: slot 1's failure whatever slot 2 holds, then slot 2's. -/
theorem addRejectsOperandsItsSlotsCannotHold : Obligations.AddRejectsOperandsItsSlotsCannotHold := by
  intro n op1 op2 c ty x s hf failed
  refine ⟨exec_add_of_token_error hf (computeToken_error_first rfl), fun h1 h2 => ?_⟩
  have hslot1 : ∃ a, slotPart addVariant.method1 addVariant.size1 (some op1) = .ok a := by
    rcases op1 with ⟨b | a | k, c1, ty1⟩
    · exact ⟨_, tokenPart_rma_reg .dword b c1 ty1⟩
    · exact ⟨_, tokenPart_rma_addr .dword a c1 ty1⟩
    · exact absurd rfl (h1 k)
  have hslot2 : slotPart addVariant.method2 addVariant.size2 (some op2) = .error .unsupportedAddressing := by
    rcases op2 with ⟨g | _ | _, c2, ty2⟩
    · exact absurd rfl (h2 g)
    · rfl
    · rfl
  obtain ⟨a, ha⟩ := hslot1
  exact exec_add_of_token_error hf (computeToken_error_second ha hslot2)

end Sys2Proof.Machine
end

section
/-! One step of the block: what it selects, and the one lemma that says everything a step can do while a request is in
progress (42_encoder.md R82, 60_exceptions.md R96). -/

namespace Sys2Proof.Machine

/-! ### A request in progress -/

/-- The failure that the present phase of a request in progress meets (R92 to R95). -/
def Transient.fails (t : Transient) (k : Failure) : Prop :=
  match t.phase with
  | .lookup => k = .unsupportedMnemonic
  | .token => t.request.opcode.hasRegisterToken = true ∧
      ∃ v, t.variant = some v ∧ computeToken v t.request.eff1 t.request.eff2 = .error k
  | .op1 => ∃ v o, t.variant = some v ∧ t.request.eff1 = some o ∧ writeValue v.method1 v.size1 o.value = .error k
  | .op2 => ∃ v o, t.variant = some v ∧ t.request.eff2 = some o ∧ writeValue v.method2 v.size2 o.value = .error k
  | .opc | .done => False

/-- What the sequencer can choose for a request in progress at s. Finer than `Action.GoesOn`, which speaks of the last
result alone: it names the states gone to, and the failures by their causes. -/
inductive PhaseMove (t : Transient) (s : State) : Action → Prop where
  | emit {i : Instr} (hi : placedRequest i = none) : PhaseMove t s (.run i s)
  | advance : PhaseMove t s (.goto s.advance)
  | found (i : Nat) : PhaseMove t s (.goto (s.setIndex i).advance)
  | raise {k : Failure} (hk : t.fails k) : PhaseMove t s (.goto (s.raise k))
  | complete (hp : t.phase = .done) : PhaseMove t s (.goto s.complete)
  | stop (f : Fault) : PhaseMove t s (.stop f)

/-- What an operand's phase chooses: a row, the end of the phase, or the failure of the operand's value. -/
theorem operandAction_cases (m : AddressingMethod) (z : OperandSize) (op : Option Operand) (t : Transient) (s : State) :
    (∃ i, placedRequest i = none ∧ operandAction m z op t s = .run i s) ∨ operandAction m z op t s = .goto s.advance ∨
      ∃ o k, op = some o ∧ writeValue m z o.value = .error k ∧ operandAction m z op t s = .goto (s.raise k) := by
  rcases op with _ | ⟨v, c, ty⟩
  · exact .inr (.inl rfl)
  cases hd : t.valueDone with
  | true =>
    cases c with
    | noCorr => exact .inr (.inl (by simp [operandAction, hd]))
    | short d => exact .inl ⟨.disp8 d, rfl, by simp [operandAction, hd]⟩
    | long d => exact .inl ⟨.disp32 d, rfl, by simp [operandAction, hd]⟩
  | false =>
    rcases hv : valueForm m z v with k | i
    · exact .inr (.inr ⟨_, k, rfl, valueForm_error_iff.mp hv, by simp [operandAction, hd, hv]⟩)
    · exact .inl ⟨i, placedRequest_valueForm hv, by simp [operandAction, hd, hv]⟩

theorem operandAction_move {m : AddressingMethod} {z : OperandSize} {op : Option Operand} {t : Transient} {s : State}
    (hfails : ∀ o k, op = some o → writeValue m z o.value = .error k → t.fails k) :
    PhaseMove t s (operandAction m z op t s) := by
  rcases operandAction_cases m z op t s with ⟨i, hi, h⟩ | h | ⟨o, k, ho, hk, h⟩ <;> rw [h]
  · exact .emit hi
  · exact .advance
  · exact .raise (hfails o k ho hk)

theorem phaseAction_move (t : Transient) (s : State) : PhaseMove t s (phaseAction t s) := by
  unfold phaseAction
  cases hp : t.phase with
  | opc =>
    dsimp only
    split
    · exact .emit rfl
    · exact .stop _
  | lookup =>
    dsimp only
    split
    · exact .raise (by simp [Transient.fails, hp])
    · exact .found _
  | token =>
    cases hv : t.variant with
    | none => exact .stop _
    | some v =>
      cases hh : t.request.opcode.hasRegisterToken with
      | false => simpa [tokenAction, hh] using PhaseMove.advance
      | true =>
        rcases hc : computeToken v t.request.eff1 t.request.eff2 with k | tok
        · simpa [tokenAction, hh, hc] using PhaseMove.raise (s := s) (by simpa [Transient.fails, hp, hh, hv] using hc)
        · simpa [tokenAction, hh, hc] using PhaseMove.emit (placedRequest_tokenForm ..)
  | op1 | op2 =>
    cases hv : t.variant with
    | none => exact .stop _
    | some v => exact operandAction_move fun o k ho hk => by simpa [Transient.fails, hp, hv, ho] using hk
  | done => exact .complete hp

/-- R43: a request issued in the present phase of the one in progress is refused. -/
theorem step_rival {s : State} {t : Transient} {a : Arrival} {rest : List Arrival} (hf : s.inFlight = some t)
    (hb : s.inbox = a :: rest) (hd : a.during = some t.phase) :
    step s = .next (({ s with inbox := rest } : State).refuse .sharedSink) := by
  have hrun : step s = exec (instrOf a.request) { s with inbox := rest } :=
    step_of_run (by simp [nextAction, hf, hb, hd])
  have hbusy : ({ s with inbox := rest } : State).inFlight = some t := hf
  rw [hrun, exec_instrOf, exec_request rfl, transact_of_busy hbusy]

/-- Everything a step can leave while the request t is in progress at s. -/
inductive BusyStep (t : Transient) (s : State) : State → Prop where
  | rival (rest : List Arrival) : BusyStep t s (({ s with inbox := rest } : State).refuse .sharedSink)
  | emit {i : Instr} (hi : placedRequest i = none) : BusyStep t s (s.afterRow i)
  | advance : BusyStep t s s.advance
  | found (i : Nat) : BusyStep t s (s.setIndex i).advance
  | raise {k : Failure} (hk : t.fails k) : BusyStep t s (s.raise k)
  | complete (hp : t.phase = .done) : BusyStep t s s.complete

theorem busyStep_of_step {s s' : State} {t : Transient} (hf : s.inFlight = some t) (hs : step s = .next s') :
    BusyStep t s s' := by
  rcases step_busy hf with ⟨a, rest, hb, hd, -⟩ | hact
  · rw [step_rival hf hb hd] at hs
    cases hs
    exact .rival rest
  have hmove := phaseAction_move t s
  rw [← hact] at hmove
  generalize ha : nextAction s = act at hmove
  cases hmove with
  | emit hi =>
    rw [step_of_run ha, exec_row hi] at hs
    cases hs
    exact .emit hi
  | advance =>
    rw [step_of_goto ha] at hs
    cases hs
    exact .advance
  | found i =>
    rw [step_of_goto ha] at hs
    cases hs
    exact .found i
  | raise hk =>
    rw [step_of_goto ha] at hs
    cases hs
    exact .raise hk
  | complete hp =>
    rw [step_of_goto ha] at hs
    cases hs
    exact .complete hp
  | stop f =>
    rw [step_of_stop ha] at hs
    cases hs

/-- A failure that a step with a request in progress leaves as a new result is one its phase meets. -/
theorem fails_of_step {s s' : State} {t : Transient} {k : Failure} (hf : s.inFlight = some t)
    (hold : s.result ≠ some (.fault k)) (hs : step s = .next s') (hnew : s'.result = some (.fault k)) : t.fails k := by
  cases busyStep_of_step hf hs with
  | rival rest => cases hnew
  | emit hi => exact absurd hnew hold
  | advance => exact absurd hnew hold
  | found i => exact absurd hnew hold
  | raise hk =>
    cases hnew
    exact hk
  | complete hp => cases hnew

/-! ### The obligations -/

/-- Settles O1: a launched block has no request in progress and none to take. -/
theorem launchIsIdleAndWaits : Obligations.LaunchIsIdleAndWaits :=
  ⟨fun _ => ⟨rfl, rfl, rfl, rfl, rfl, rfl, rfl⟩, rfl⟩

/-- Settles O2: an idle block is good. -/
theorem launchedStateIsGood : Obligations.LaunchedStateIsGood := fun _ => rfl

/-! ### Placed rows -/

theorem step_place_of_phaseAction {i : Instr} {t : Transient} (s : State) (hi : placedRequest i = none)
    (ht : placedFlight i = some t) (ha : phaseAction t (s.place i) = .run i (s.place i)) :
    step (s.place i) = exec i (s.place i) := by
  refine step_of_run (Eq.trans ?_ ha)
  simp [nextAction, State.place, hi, ht]

/-- A placed token row is what the token of its two slots selects (R68). -/
theorem phaseAction_placedToken (g : Reg) (o : Operand) (s : State) {mod : BitVec 2} {rm : Reg}
    (ho : tokenPart .registerOrMemoryAddress .dword o = .ok (tokenBits mod 0#3 rm)) :
    phaseAction (placedToken g o) s = .run
      (if rmaIsAddress .registerOrMemoryAddress (some o) then .tokAbs g else tokenFormOfMod mod g rm) s := by
  have htok : computeToken addVariant (some o) (some ⟨.reg g, .noCorr, .normal⟩) = .ok (tokenBits mod g rm) := by
    have hreg := tokenPart_register_reg .dword g .noCorr .normal
    rw [computeToken_ok (v := addVariant) (e1 := some o) (e2 := some ⟨.reg g, .noCorr, .normal⟩) ho hreg,
      tokenBits_or]
    simp
  have haction : phaseAction (placedToken g o) s = tokenAction addVariant (placedToken g o) s := rfl
  have hregister : rmaIsAddress addVariant.method2 (some ⟨.reg g, .noCorr, .normal⟩) = true := rfl
  rw [haction, tokenAction]
  simp [placedToken, madeUpRequest, htok, tokenForm, Variant.registerContributes, Variant.rmaContributes, hregister]
  rfl

/-- A placed `Register` part is what the token of its one slot selects (log 9). -/
theorem phaseAction_placedRegister (g : Reg) (s : State) {t : Transient} (ht : placedFlight (.tokReg g) = some t) :
    phaseAction t s = .run (.tokReg g) s := by
  have htok : computeToken ⟨.register, .dword, .none, .dword⟩ (some ⟨.reg g, .noCorr, .normal⟩) none =
      .ok (tokenBits 0#2 g 0#3 ||| 0x00#8) :=
    computeToken_ok (v := ⟨.register, .dword, .none, .dword⟩) (tokenPart_register_reg .dword g .noCorr .normal) rfl
  cases ht
  simp [phaseAction, madeUpRequest, Transient.variant, OpCode.variantAt, tokenAction, htok, tokenForm,
    Variant.registerContributes]

/-- A placed value row is what its operand 1's value selects (R71). -/
theorem phaseAction_placedValue (m : AddressingMethod) (z : OperandSize) (v : Value) (s : State) {i : Instr}
    (hv : valueForm m z v = .ok i) : phaseAction (placedValue m z v) s = .run i s := by
  have haction : phaseAction (placedValue m z v) s =
      operandAction m z (some ⟨v, .noCorr, .normal⟩) (placedValue m z v) s := rfl
  rw [haction]
  simp [operandAction, placedValue, hv]

theorem number_imm_zeroExtend {w : Nat} (hw : w ≤ 64) (v : BitVec w) :
    (Value.imm (v.zeroExtend 64)).number = some v.toNat :=
  congrArg some (BitVec.toNat_setWidth_of_le hw)

theorem valueForm_of_fitNumber {z : OperandSize} {v : Value} {x : SizedNumber} (h : fitNumber z v = .ok x) :
    valueForm .immediateData z v = .ok x.form := by
  simp [valueForm, h]

/-- Log 12: a placed emission row is the next action. -/
theorem step_place_row {i : Instr} (hi : placedRequest i = none) (s : State) :
    step (s.place i) = exec i (s.place i) := by
  cases i with
  | encode r => cases hi
  | add o1 o2 => cases hi
  | opc b => exact step_place_of_phaseAction s hi rfl rfl
  | tokRegonly g b =>
    exact step_place_of_phaseAction s hi rfl
      (phaseAction_placedToken g _ _ (tokenPart_rma_reg .dword b .noCorr .normal))
  | tokRegptr g b =>
    exact step_place_of_phaseAction s hi rfl
      (phaseAction_placedToken g _ _ (tokenPart_rma_reg .dword b .noCorr .dereferenced))
  | tokDisp8 g b =>
    exact step_place_of_phaseAction s hi rfl
      (phaseAction_placedToken g _ _ (tokenPart_rma_reg .dword b (.short 0#8) .normal))
  | tokDisp32 g b =>
    exact step_place_of_phaseAction s hi rfl
      (phaseAction_placedToken g _ _ (tokenPart_rma_reg .dword b (.long 0#32) .normal))
  | tokAbs g =>
    exact step_place_of_phaseAction s hi rfl
      (phaseAction_placedToken g _ _ (tokenPart_rma_addr .dword 0#32 .noCorr .normal))
  | tokReg g => exact step_place_of_phaseAction s hi rfl (phaseAction_placedRegister g _ rfl)
  | tokNone => exact step_place_of_phaseAction s hi rfl rfl
  | imm8 v =>
    have hfit := fitNumber_byte (number_imm_zeroExtend (by decide) v) v.isLt
    rw [BitVec.ofNat_toNat, BitVec.setWidth_eq] at hfit
    exact step_place_of_phaseAction s hi rfl (phaseAction_placedValue _ _ _ _ (valueForm_of_fitNumber hfit))
  | imm16 v =>
    have hfit := fitNumber_word (number_imm_zeroExtend (by decide) v) v.isLt
    rw [BitVec.ofNat_toNat, BitVec.setWidth_eq] at hfit
    exact step_place_of_phaseAction s hi rfl (phaseAction_placedValue _ _ _ _ (valueForm_of_fitNumber hfit))
  | imm32 v =>
    have hfit := fitNumber_dword (number_imm_zeroExtend (by decide) v) v.isLt
    rw [BitVec.ofNat_toNat, BitVec.setWidth_eq] at hfit
    exact step_place_of_phaseAction s hi rfl (phaseAction_placedValue _ _ _ _ (valueForm_of_fitNumber hfit))
  | addr32 a => exact step_place_of_phaseAction s hi rfl (phaseAction_placedValue _ _ _ _ rfl)
  | disp8 d => exact step_place_of_phaseAction s hi rfl rfl
  | disp32 d => exact step_place_of_phaseAction s hi rfl rfl
  | novalueRel => exact step_place_of_phaseAction s hi rfl rfl
  | novalue => exact step_place_of_phaseAction s hi rfl rfl

/-- Log 12: a placed request is taken by the idle block and run as itself. -/
theorem step_place_request {i : Instr} (hi : placedRequest i ≠ none) (s : State) :
    step (s.place i) = exec i { s with inFlight := none } := by
  obtain ⟨r, hr⟩ := Option.ne_none_iff_exists'.mp hi
  have hrun : step (s.place i) = exec (instrOf r) { s with inFlight := none } :=
    step_of_run (by simp [nextAction, State.place, hr, issue])
  rw [hrun, exec_instrOf, exec_request rfl, exec_request hr]

/-- Settles O39: an idle block's choice, and the placed rows. -/
theorem stepRunsTheSelectedInstruction : Obligations.StepRunsTheSelectedInstruction := by
  refine ⟨fun s a rest hf hb hp => step_of_run ?_, exec_instrOf, fun s i hi => step_place_row hi s,
    fun s i hi => step_place_request hi s, fun s nbits w i hi => ?_⟩
  · simp [nextAction, issue, hf, hb, hp]
  · simp [State.withFetchWord, hi]

/-- Settles O40. -/
theorem rivalRequestIsRefused : Obligations.RivalRequestIsRefused := fun _ _ _ _ hf hb hd => step_rival hf hb hd

/-- Settles O41: the cases of a step with a request in progress. -/
theorem phasesRunInOrderOnTheSampledRequest : Obligations.PhasesRunInOrderOnTheSampledRequest := by
  intro s s' t hf hs
  cases busyStep_of_step hf hs with
  | rival rest => exact .inl ⟨t, hf, rfl, .inl rfl⟩
  | @emit i hi => exact .inl ⟨rowFlight i s t, by simp [hf], rowFlight_request i s t, rowFlight_phase i s t⟩
  | advance => exact .inl ⟨{ t with phase := t.phase.next, valueDone := false }, by simp [hf], rfl, .inr rfl⟩
  | found i =>
    exact .inl ⟨{ t with phase := t.phase.next, index := some i, valueDone := false }, by simp [hf], rfl, .inr rfl⟩
  | raise hk => exact .inr ⟨rfl, rfl, .inr ⟨_, rfl⟩⟩
  | complete hp => exact .inr ⟨rfl, rfl, .inl ⟨hp, rfl⟩⟩

/-- The clause of R99 on the mark, for a step from s to s'. -/
def MarkOnlyByRefusal (s s' : State) : Prop :=
  (s.refusalMark = true → s'.refusalMark = true) ∧
    (s.refusalMark = false → s'.refusalMark = true →
      s'.sink = s.sink ∧ s'.inFlight = s.inFlight ∧ ∃ why, s'.result = some (.refused why))

theorem markOnlyByRefusal_of_eq {s s' : State} (h : s'.refusalMark = s.refusalMark) : MarkOnlyByRefusal s s' :=
  ⟨fun hs => h.trans hs, fun hs hs' => absurd (h.symm.trans hs') (by simp [hs])⟩

theorem markOnlyByRefusal_transact (r : Request) (s : State) : MarkOnlyByRefusal s (transact r s) := by
  rcases transact_cases r s with ⟨why, -, h⟩ | ⟨-, -, h⟩ | ⟨_, -, -, h⟩ <;> rw [h]
  · exact ⟨fun _ => rfl, fun _ _ => ⟨rfl, rfl, why, rfl⟩⟩
  · exact markOnlyByRefusal_of_eq rfl
  · exact markOnlyByRefusal_of_eq rfl

/-- Settles O43: only a transaction and a rival can refuse. -/
theorem refusalMarkIsSetOnlyByARefusal : Obligations.RefusalMarkIsSetOnlyByARefusal := by
  intro s s' hs
  show MarkOnlyByRefusal s s'
  rcases hf : s.inFlight with _ | t
  · rcases step_idle hf with ⟨-, h⟩ | ⟨a, rest, -, ⟨-, -, h⟩ | h⟩
    · rw [h] at hs
      cases hs
      exact markOnlyByRefusal_of_eq rfl
    · rw [h] at hs
      cases hs
      exact markOnlyByRefusal_of_eq rfl
    · rw [h, exec_instrOf, exec_request rfl] at hs
      cases hs
      exact markOnlyByRefusal_transact a.request { s with inbox := rest }
  · cases busyStep_of_step hf hs with
    | rival rest => exact ⟨fun _ => rfl, fun _ _ => ⟨rfl, rfl, _, rfl⟩⟩
    | emit hi => exact markOnlyByRefusal_of_eq rfl
    | advance => exact markOnlyByRefusal_of_eq rfl
    | found i => exact markOnlyByRefusal_of_eq rfl
    | raise hk => exact markOnlyByRefusal_of_eq rfl
    | complete hp => exact markOnlyByRefusal_of_eq rfl

end Sys2Proof.Machine
end

section
/-! The sink is never read (10_state.md R25, 20_memory.md R39): the sequencer's choice commutes with any change of the
sink, and what the chosen instruction appends does not depend on it. -/

namespace Sys2Proof.Machine

/-- s with another sink. -/
def State.withSink (s : State) (x : List Byte) : State := { s with sink := x }

/-- The action with another sink in the state it acts on. -/
def Action.withSink (x : List Byte) : Action → Action
  | .run i s => .run i (s.withSink x)
  | .goto s => .goto (s.withSink x)
  | .stop f => .stop f

theorem tokenAction_withSink (v : Variant) (t : Transient) (s : State) (x : List Byte) :
    tokenAction v t (s.withSink x) = (tokenAction v t s).withSink x := by
  unfold tokenAction
  split
  · split <;> rfl
  · rfl

theorem operandAction_withSink (m : AddressingMethod) (z : OperandSize) (op : Option Operand) (t : Transient)
    (s : State) (x : List Byte) : operandAction m z op t (s.withSink x) = (operandAction m z op t s).withSink x := by
  unfold operandAction
  split
  · rfl
  · split
    · split <;> rfl
    · split <;> rfl

theorem phaseAction_withSink (t : Transient) (s : State) (x : List Byte) :
    phaseAction t (s.withSink x) = (phaseAction t s).withSink x := by
  unfold phaseAction
  cases t.phase with
  | opc => dsimp only; split <;> rfl
  | lookup => dsimp only; split <;> rfl
  | token =>
    dsimp only
    split
    · rfl
    · exact tokenAction_withSink ..
  | op1 | op2 =>
    dsimp only
    split
    · rfl
    · exact operandAction_withSink ..
  | done => rfl

theorem issue_withSink (a : Arrival) (s : State) (x : List Byte) :
    issue a (s.withSink x) = (issue a s).withSink x := by
  unfold issue
  split <;> rfl

theorem nextAction_withSink (s : State) (x : List Byte) : nextAction (s.withSink x) = (nextAction s).withSink x := by
  rcases s with ⟨sink, _ | t, result, mark, _ | ⟨a, rest⟩⟩
  · rfl
  · exact issue_withSink a ⟨sink, none, result, mark, rest⟩ x
  · exact phaseAction_withSink t ⟨sink, some t, result, mark, []⟩ x
  · simp only [nextAction, State.withSink]
    split
    · rfl
    · exact phaseAction_withSink t ⟨sink, some t, result, mark, a :: rest⟩ x

/-- The same end and the same appended bytes, whatever the sink holds. -/
def AppendsSame (f : State → Host.Outcome State Fault Refusal) (s : State) : Prop :=
  ∃ bs t, ∀ x, f (s.withSink x) = .next (State.withSink t (x ++ bs))

theorem transact_appendsSame (r : Request) (s : State) : AppendsSame (fun u => .next (transact r u)) s := by
  rcases ha : admission s.inFlight.isSome r with _ | why
  · rcases hp : runPhases r with ⟨bs, _ | k⟩
    · exact ⟨bs, s.complete, fun x => congrArg _ (by simp [transact, State.withSink, ha, hp]; rfl)⟩
    · exact ⟨bs, s.raise k, fun x => congrArg _ (by simp [transact, State.withSink, ha, hp]; rfl)⟩
  · exact ⟨[], s.refuse why, fun x => congrArg _ (by simp [transact, State.withSink, ha]; rfl)⟩

theorem exec_appendsSame (i : Instr) (s : State) : AppendsSame (exec i) s := by
  rcases hi : placedRequest i with _ | r
  · exact ⟨emitted i s, s.afterRow i, fun x => exec_row hi (s.withSink x)⟩
  · obtain ⟨bs, t, h⟩ := transact_appendsSame r s
    exact ⟨bs, t, fun x => (exec_request hi (s.withSink x)).trans (h x)⟩

/-- Settles O42: the sequencer's choice, then what the chosen instruction appends. -/
theorem sinkIsAppendOnlyAndNeverRead : Obligations.SinkIsAppendOnlyAndNeverRead := by
  intro s
  have hact (x : List Byte) := nextAction_withSink s x
  rcases ha : nextAction s with ⟨i, u⟩ | u | f <;> simp only [ha, Action.withSink] at hact
  · obtain ⟨bs, t, h⟩ := exec_appendsSame i u
    exact .inr ⟨bs, t, fun x => (step_of_run (hact x)).trans (h x)⟩
  · exact .inr ⟨[], u, fun x => (step_of_goto (hact x)).trans (by rw [List.append_nil]; rfl)⟩
  · exact .inl ⟨f, fun x => step_of_stop (hact x)⟩

end Sys2Proof.Machine
end

section
/-! The invariant of 10_state.md R28 by phases: what `Transient.Good` says of a request in progress, one constructor per
phase of R82. -/

namespace Sys2Proof.Machine

/-- R28 within TOKEN, once the `Register` part is in (log 9). -/
def RegisterPartIs (r : Request) (v : Variant) (tok : Option Byte) : Prop :=
  r.opcode.hasRegisterToken = true ∧ v.registerContributes r.eff1 r.eff2 = true ∧
    v.rmaContributes r.eff1 r.eff2 = true ∧
    ∃ b, computeToken v r.eff1 r.eff2 = .ok b ∧ tok = some (registerPart b)

/-- R28 after TOKEN. -/
def TokenIs (r : Request) (v : Variant) (tok : Option Byte) : Prop :=
  (r.opcode.hasRegisterToken = true ∧ ∃ b, computeToken v r.eff1 r.eff2 = .ok b ∧ tok = some b) ∨
    (r.opcode.hasRegisterToken = false ∧ tok = none)

/-- The good requests in progress. -/
inductive GoodFlight : Transient → Prop where
  | opc {r : Request} (hw : r.opcode.wf = true) : GoodFlight ⟨r, .opc, none, none, false⟩
  | lookup {r : Request} (hw : r.opcode.wf = true) : GoodFlight ⟨r, .lookup, none, none, false⟩
  | token {r : Request} {v : Variant} {tok : Option Byte} (hw : r.opcode.wf = true) (hv : r.variant = some v)
      (htok : tok = none ∨ RegisterPartIs r v tok) :
      GoodFlight ⟨r, .token, firstIndex r.opcode.mnemonics r.mnemonic, tok, false⟩
  | op1 {r : Request} {v : Variant} {tok : Option Byte} {d : Bool} (hw : r.opcode.wf = true)
      (hv : r.variant = some v) (htok : TokenIs r v tok) (hd : d = true → r.eff1.isSome = true) :
      GoodFlight ⟨r, .op1, firstIndex r.opcode.mnemonics r.mnemonic, tok, d⟩
  | op2 {r : Request} {v : Variant} {tok : Option Byte} {d : Bool} (hw : r.opcode.wf = true)
      (hv : r.variant = some v) (htok : TokenIs r v tok) (hd : d = true → r.eff2.isSome = true) :
      GoodFlight ⟨r, .op2, firstIndex r.opcode.mnemonics r.mnemonic, tok, d⟩
  | done {r : Request} {v : Variant} {tok : Option Byte} (hw : r.opcode.wf = true) (hv : r.variant = some v)
      (htok : TokenIs r v tok) : GoodFlight ⟨r, .done, firstIndex r.opcode.mnemonics r.mnemonic, tok, false⟩

theorem tokenPending_iff {r : Request} {p : Phase} {i : Option Nat} {tok : Option Byte} {d : Bool} {v : Variant} :
    Transient.tokenPending ⟨r, p, i, tok, d⟩ v = true ↔ tok = none ∨ RegisterPartIs r v tok := by
  simp only [Transient.tokenPending, RegisterPartIs]
  cases computeToken v r.eff1 r.eff2 <;> simp [and_assoc]

theorem tokenSet_iff {r : Request} {p : Phase} {i : Option Nat} {tok : Option Byte} {d : Bool} {v : Variant} :
    Transient.tokenSet ⟨r, p, i, tok, d⟩ v = true ↔ TokenIs r v tok := by
  simp only [Transient.tokenSet, TokenIs]
  cases r.opcode.hasRegisterToken <;> cases computeToken v r.eff1 r.eff2 <;> simp

theorem admission_isNone_iff (r : Request) : (admission false r).isNone = true ↔ r.opcode.wf = true := by
  rw [Option.isNone_iff_eq_none, admission_idle_iff]

/-- The value mark's clause of R28. -/
theorem valueMark_iff (d x : Bool) : (!d || x) = true ↔ (d = true → x = true) := by
  cases d <;> simp

/-- Past LOOKUP the index selects the variant of the request (R84). -/
theorem variant_of_index (r : Request) (p : Phase) (tok : Option Byte) (d : Bool) :
    Transient.variant ⟨r, p, firstIndex r.opcode.mnemonics r.mnemonic, tok, d⟩ = r.variant := rfl

theorem goodFlight_of_good {t : Transient} (h : t.Good = true) : GoodFlight t := by
  rcases t with ⟨r, p, i, tok, d⟩
  simp only [Transient.Good, Bool.and_eq_true, admission_isNone_iff] at h
  obtain ⟨hw, h⟩ := h
  cases p with
  | opc =>
    simp only [Bool.and_eq_true, beq_iff_eq, Bool.not_eq_true'] at h
    obtain ⟨⟨rfl, rfl⟩, rfl⟩ := h
    exact .opc hw
  | lookup =>
    simp only [Bool.and_eq_true, beq_iff_eq, Bool.not_eq_true'] at h
    obtain ⟨⟨rfl, rfl⟩, rfl⟩ := h
    exact .lookup hw
  | token =>
    simp only [Bool.and_eq_true, beq_iff_eq] at h
    obtain ⟨rfl, h⟩ := h
    rw [variant_of_index] at h
    rcases hv : r.variant with _ | v <;> simp only [hv, Bool.false_eq_true, Bool.and_eq_true, Bool.not_eq_true',
      tokenPending_iff] at h
    obtain ⟨htok, rfl⟩ := h
    exact .token hw hv htok
  | op1 =>
    simp only [Bool.and_eq_true, beq_iff_eq] at h
    obtain ⟨rfl, h⟩ := h
    rw [variant_of_index] at h
    rcases hv : r.variant with _ | v <;> simp only [hv, Bool.false_eq_true, Bool.and_eq_true, tokenSet_iff,
      valueMark_iff] at h
    obtain ⟨htok, hd⟩ := h
    exact .op1 hw hv htok hd
  | op2 =>
    simp only [Bool.and_eq_true, beq_iff_eq] at h
    obtain ⟨rfl, h⟩ := h
    rw [variant_of_index] at h
    rcases hv : r.variant with _ | v <;> simp only [hv, Bool.false_eq_true, Bool.and_eq_true, tokenSet_iff,
      valueMark_iff] at h
    obtain ⟨htok, hd⟩ := h
    exact .op2 hw hv htok hd
  | done =>
    simp only [Bool.and_eq_true, beq_iff_eq] at h
    obtain ⟨rfl, h⟩ := h
    rw [variant_of_index] at h
    rcases hv : r.variant with _ | v <;> simp only [hv, Bool.false_eq_true, Bool.and_eq_true, Bool.not_eq_true',
      tokenSet_iff] at h
    obtain ⟨htok, rfl⟩ := h
    exact .done hw hv htok

theorem good_of_goodFlight {t : Transient} (h : GoodFlight t) : t.Good = true := by
  cases h with
  | opc hw => simp [Transient.Good, (admission_idle_iff _).mpr hw]
  | lookup hw => simp [Transient.Good, (admission_idle_iff _).mpr hw]
  | token hw hv htok =>
    simp [Transient.Good, variant_of_index, (admission_idle_iff _).mpr hw, hv, tokenPending_iff, htok]
  | op1 hw hv htok hd =>
    simp only [Transient.Good, variant_of_index, admission_isNone_iff, hw, hv, beq_self_eq_true, Bool.and_eq_true,
      tokenSet_iff, htok, valueMark_iff, true_and]
    exact hd
  | op2 hw hv htok hd =>
    simp only [Transient.Good, variant_of_index, admission_isNone_iff, hw, hv, beq_self_eq_true, Bool.and_eq_true,
      tokenSet_iff, htok, valueMark_iff, true_and]
    exact hd
  | done hw hv htok =>
    simp [Transient.Good, variant_of_index, (admission_idle_iff _).mpr hw, hv, tokenSet_iff, htok]

theorem goodFlight_of_state {s : State} {t : Transient} (hg : s.Good = true) (hf : s.inFlight = some t) :
    GoodFlight t := by
  rw [State.Good, hf] at hg
  exact goodFlight_of_good hg

end Sys2Proof.Machine
end

section
/-! The causes of the failures (60_exceptions.md R92 to R95): from how the phases of a request end, and from what the
phase of a request in progress meets. -/

namespace Sys2Proof.Machine

/-! ### The slots of a request -/

theorem requestSlot1_of_eff {r : Request} {v : Variant} {o : Operand} (hv : r.variant = some v)
    (ho : r.eff1 = some o) : requestSlot1 r = some (v.method1, v.size1, o) := by
  simp [requestSlot1, hv, ho]

theorem requestSlot2_of_eff {r : Request} {v : Variant} {o : Operand} (hv : r.variant = some v)
    (ho : r.eff2 = some o) : requestSlot2 r = some (v.method2, v.size2, o) := by
  simp [requestSlot2, hv, ho]

theorem requestSlot1_eq_some {r : Request} {x : AddressingMethod × OperandSize × Operand}
    (h : requestSlot1 r = some x) :
    ∃ v o, r.variant = some v ∧ r.eff1 = some o ∧ x = (v.method1, v.size1, o) := by
  simp only [requestSlot1, Option.bind_eq_some_iff, Option.map_eq_some_iff] at h
  obtain ⟨v, hv, o, ho, rfl⟩ := h
  exact ⟨v, o, hv, ho, rfl⟩

theorem mem_requestSlots_iff {r : Request} {x : AddressingMethod × OperandSize × Operand} :
    x ∈ requestSlots r ↔ requestSlot1 r = some x ∨ requestSlot2 r = some x := by
  simp [requestSlots]

/-! ### How a whole request fails -/

/-- What fails in a request that its opcode declares: the token, or the value of a slot once the token is complete. -/
theorem runPhases_failure_cause {r : Request} {k : Failure} (h : (runPhases r).2 = some k)
    (hk : k ≠ .unsupportedMnemonic) :
    ∃ v, r.variant = some v ∧
      ((r.opcode.hasRegisterToken = true ∧ computeToken v r.eff1 r.eff2 = .error k ∧
          (runPhases r).1 = writeOpcode r.opcode) ∨
        ((∃ tok, writeToken r.opcode.hasRegisterToken v r.eff1 r.eff2 = .ok tok) ∧
          ((∃ o, r.eff1 = some o ∧ ValueFails v.method1 v.size1 o.value k) ∨
            ∃ o, r.eff2 = some o ∧ ValueFails v.method2 v.size2 o.value k))) := by
  rcases runPhases_cases r with ⟨-, hp⟩ |
      ⟨v, hv, ⟨k', hk', hp⟩ | ⟨tok, htok, ⟨k', hk', hp⟩ | ⟨_, -, ⟨k', hk', hp⟩ | ⟨_, -, hp⟩⟩⟩⟩ <;>
    rw [hp] at h <;> cases h
  · exact absurd rfl hk
  · obtain ⟨hh, hc⟩ := computeToken_of_writeToken_error hk'
    exact ⟨v, hv, .inl ⟨hh, hc, by rw [hp]⟩⟩
  · exact ⟨v, hv, .inr ⟨⟨tok, htok⟩, .inl (writeSlot_error_cause hk')⟩⟩
  · exact ⟨v, hv, .inr ⟨⟨tok, htok⟩, .inr (writeSlot_error_cause hk')⟩⟩

/-- The result of an admitted request is a failure exactly when its phases end in it. -/
theorem ofFailure_eq_fault_iff {x : Option Failure} {k : Failure} :
    some (RequestResult.ofFailure x) = some (.fault k) ↔ x = some k := by
  cases x <;> simp [RequestResult.ofFailure]

/-! ### UnsupportedAddressing (R93) -/

theorem computeToken_unsupportedAddressing {v : Variant} {e1 e2 : Option Operand}
    (h : computeToken v e1 e2 = .error .unsupportedAddressing) :
    (v.method1 = .register ∧ ∃ o, e1 = some o ∧ o.value.number.isSome = true) ∨
      (v.method2 = .register ∧ ∃ o, e2 = some o ∧ o.value.number.isSome = true) := by
  rcases slotPart_of_computeToken_error h with h | h
  · rcases slotPart_error_cause h with ⟨-, hm, ho⟩ | ⟨hk, -, -⟩
    · exact .inl ⟨hm, ho⟩
    · cases hk
  · rcases slotPart_error_cause h with ⟨-, hm, ho⟩ | ⟨hk, -, -⟩
    · exact .inr ⟨hm, ho⟩
    · cases hk

theorem valueFails_ne_unsupportedAddressing {m : AddressingMethod} {z : OperandSize} {v : Value} {k : Failure}
    (h : ValueFails m z v k) : k ≠ .unsupportedAddressing := by
  cases h <;> decide

/-- R93: the cause in a whole request, and what it has appended. -/
theorem runPhases_unsupportedAddressing {r : Request} (h : (runPhases r).2 = some .unsupportedAddressing) :
    r.opcode.hasRegisterToken = true ∧ (runPhases r).1 = writeOpcode r.opcode ∧
      ∃ x ∈ requestSlots r, notARegister x := by
  obtain ⟨v, hv, ⟨hh, hc, hb⟩ | ⟨-, ⟨o, -, hval⟩ | ⟨o, -, hval⟩⟩⟩ := runPhases_failure_cause h (by decide)
  · refine ⟨hh, hb, ?_⟩
    rcases computeToken_unsupportedAddressing hc with ⟨hm, o, ho, hnum⟩ | ⟨hm, o, ho, hnum⟩
    · exact ⟨_, mem_requestSlots_iff.mpr (.inl (requestSlot1_of_eff hv ho)), hm, hnum⟩
    · exact ⟨_, mem_requestSlots_iff.mpr (.inr (requestSlot2_of_eff hv ho)), hm, hnum⟩
  · exact absurd rfl (valueFails_ne_unsupportedAddressing hval)
  · exact absurd rfl (valueFails_ne_unsupportedAddressing hval)

/-- R93 (decision D8, log 24): slot 1 without a register fails whatever slot 2 holds. -/
theorem runPhases_of_slot1_notARegister {r : Request} {x : AddressingMethod × OperandSize × Operand}
    (hh : r.opcode.hasRegisterToken = true) (hx : requestSlot1 r = some x) (hn : notARegister x) :
    (runPhases r).2 = some .unsupportedAddressing := by
  obtain ⟨v, o, hv, ho, rfl⟩ := requestSlot1_eq_some hx
  obtain ⟨hm, hnum⟩ := hn
  have hslot : slotPart v.method1 v.size1 r.eff1 = .error .unsupportedAddressing := by
    rw [ho, show v.method1 = .register from hm, slotPart_register]
    rcases o with ⟨_ | _ | _, c, ty⟩
    · cases hnum
    · rfl
    · rfl
  simp [runPhases_eq, fromLookup_of_variant hv, fromToken, hh, writeToken_of_error (computeToken_error_first hslot)]

/-- Settles O20: the whole request by how its phases end, the request in progress by what its phase meets. -/
theorem unsupportedAddressingNeedsARegisterSlot : Obligations.UnsupportedAddressingNeedsARegisterSlot := by
  refine ⟨fun r s hf hw => ⟨_, exec_encode_of_wf hf hw, fun h => ?_, fun hh ⟨x, hx, hn⟩ => ?_⟩,
    fun s s' t hf hold hs hnew => ?_⟩
  · obtain ⟨hh, hb, hx⟩ := runPhases_unsupportedAddressing (ofFailure_eq_fault_iff.mp h)
    exact ⟨hh, by simp only [hb, writeOpcode_of_wf hw], hx⟩
  · exact ofFailure_eq_fault_iff.mpr (runPhases_of_slot1_notARegister hh hx hn)
  · have hfails := fails_of_step hf hold hs hnew
    unfold Transient.fails at hfails
    rcases hp : t.phase <;> rw [hp] at hfails
    case token =>
      obtain ⟨hh, v, hv, hc⟩ := hfails
      exact ⟨rfl, hh, v, hv, computeToken_unsupportedAddressing hc⟩
    case op1 | op2 =>
      obtain ⟨v, o, -, -, hw⟩ := hfails
      exact absurd rfl (valueFails_ne_unsupportedAddressing (writeValue_error_cause hw))
    all_goals cases hfails

/-! ### InvalidOperand (R94) -/

theorem computeToken_invalidOperand {v : Variant} {e1 e2 : Option Operand}
    (h : computeToken v e1 e2 = .error .invalidOperand) :
    (v.method1 = .registerOrMemoryAddress ∧ ∃ o, e1 = some o ∧ ∃ n, o.value = .imm n) ∨
      (v.method2 = .registerOrMemoryAddress ∧ ∃ o, e2 = some o ∧ ∃ n, o.value = .imm n) := by
  rcases slotPart_of_computeToken_error h with h | h
  · rcases slotPart_error_cause h with ⟨hk, -, -⟩ | ⟨-, hm, ho⟩
    · cases hk
    · exact .inl ⟨hm, ho⟩
  · rcases slotPart_error_cause h with ⟨hk, -, -⟩ | ⟨-, hm, ho⟩
    · cases hk
    · exact .inr ⟨hm, ho⟩

/-- R94(a) in a request: a token that fails so has its cause among the request's slots. -/
theorem exists_immediateInRma {r : Request} {v : Variant} (hv : r.variant = some v)
    (h : computeToken v r.eff1 r.eff2 = .error .invalidOperand) : ∃ x ∈ requestSlots r, immediateInRma x := by
  rcases computeToken_invalidOperand h with ⟨hm, o, ho, n, hn⟩ | ⟨hm, o, ho, n, hn⟩
  · exact ⟨_, mem_requestSlots_iff.mpr (.inl (requestSlot1_of_eff hv ho)), hm, n, hn⟩
  · exact ⟨_, mem_requestSlots_iff.mpr (.inr (requestSlot2_of_eff hv ho)), hm, n, hn⟩

/-- R94(b) to (d): what the writer fails on, in a slot on which the resolver has not failed. -/
theorem unwritable_of_valueFails {hasToken : Bool} {m : AddressingMethod} {z : OperandSize} {o : Operand}
    (h : ValueFails m z o.value .invalidOperand) (htok : hasToken = true → ∃ b, slotPart m z (some o) = .ok b) :
    unwritable hasToken (m, z, o) := by
  cases h with
  | register hm hv => exact .inl ⟨hm, _, hv⟩
  | number hm hz hv hn => exact .inr (.inl ⟨hm, _, _, hz, hv, hn⟩)
  | address hm hv hn =>
    refine .inr (.inr ⟨?_, hm, _, hv, hn⟩)
    cases hasToken with
    | false => rfl
    | true =>
      obtain ⟨b, hb⟩ := htok rfl
      rcases o with ⟨v, c, ty⟩
      subst hm hv
      cases hb

/-- The resolver has failed on no slot of a token that is complete. -/
theorem slotParts_of_tokenIs {r : Request} {v : Variant} {tok : Option Byte} (h : TokenIs r v tok)
    (hh : r.opcode.hasRegisterToken = true) :
    (∃ a, slotPart v.method1 v.size1 r.eff1 = .ok a) ∧ ∃ b, slotPart v.method2 v.size2 r.eff2 = .ok b := by
  rcases h with ⟨-, t, ht, -⟩ | ⟨hno, -⟩
  · obtain ⟨a, b, h1, h2, -⟩ := slotParts_of_computeToken ht
    exact ⟨⟨a, h1⟩, b, h2⟩
  · rw [hh] at hno
    cases hno

/-- R94: the cause in a whole request. -/
theorem runPhases_invalidOperand {r : Request} (h : (runPhases r).2 = some .invalidOperand) :
    ∃ x ∈ requestSlots r,
      (r.opcode.hasRegisterToken = true ∧ immediateInRma x) ∨ unwritable r.opcode.hasRegisterToken x := by
  obtain ⟨v, hv, ⟨hh, hc, -⟩ | ⟨htok, ⟨o, ho, hval⟩ | ⟨o, ho, hval⟩⟩⟩ := runPhases_failure_cause h (by decide)
  · obtain ⟨x, hx, hi⟩ := exists_immediateInRma hv hc
    exact ⟨x, hx, .inl ⟨hh, hi⟩⟩
  · rw [writeToken_ok_iff] at htok
    exact ⟨_, mem_requestSlots_iff.mpr (.inl (requestSlot1_of_eff hv ho)),
      .inr (unwritable_of_valueFails hval fun hh => ho ▸ (htok hh).1)⟩
  · rw [writeToken_ok_iff] at htok
    exact ⟨_, mem_requestSlots_iff.mpr (.inr (requestSlot2_of_eff hv ho)),
      .inr (unwritable_of_valueFails hval fun hh => ho ▸ (htok hh).2)⟩

/-- R94 by phases: the cause in a good request in progress. -/
theorem goodFlight_invalidOperand {t : Transient} (hg : GoodFlight t) (h : t.fails .invalidOperand) :
    (t.phase = .token ∧ t.request.opcode.hasRegisterToken = true ∧ ∃ x ∈ requestSlots t.request, immediateInRma x) ∨
      (t.phase = .op1 ∧ ∃ x, requestSlot1 t.request = some x ∧ unwritable t.request.opcode.hasRegisterToken x) ∨
      (t.phase = .op2 ∧ ∃ x, requestSlot2 t.request = some x ∧ unwritable t.request.opcode.hasRegisterToken x) := by
  cases hg with
  | opc hw => cases h
  | lookup hw => cases h
  | token hw hv htok =>
    obtain ⟨hh, v, hv', hc⟩ := h
    exact .inl ⟨rfl, hh, exists_immediateInRma hv' hc⟩
  | op1 hw hv htok hd =>
    obtain ⟨v, o, hv', ho, hval⟩ := h
    cases hv.symm.trans hv'
    exact .inr (.inl ⟨rfl, _, requestSlot1_of_eff hv ho, unwritable_of_valueFails (writeValue_error_cause hval)
      fun hh => ho ▸ (slotParts_of_tokenIs htok hh).1⟩)
  | op2 hw hv htok hd =>
    obtain ⟨v, o, hv', ho, hval⟩ := h
    cases hv.symm.trans hv'
    exact .inr (.inr ⟨rfl, _, requestSlot2_of_eff hv ho, unwritable_of_valueFails (writeValue_error_cause hval)
      fun hh => ho ▸ (slotParts_of_tokenIs htok hh).2⟩)
  | done hw hv htok => cases h

/-- Settles O21: the whole request by how its phases end, the good request in progress by its phase. -/
theorem invalidOperandHasOneOfFourCauses : Obligations.InvalidOperandHasOneOfFourCauses :=
  ⟨fun _ _ hf hw => ⟨_, exec_encode_of_wf hf hw, fun h => runPhases_invalidOperand (ofFailure_eq_fault_iff.mp h)⟩,
    fun _ _ _ hg hf hold hs hnew =>
      goodFlight_invalidOperand (goodFlight_of_state hg hf) (fails_of_step hf hold hs hnew)⟩

/-! ### UnsupportedSize (R95) -/

theorem width_eq_none_iff {z : OperandSize} : z.width = none ↔ ∃ y, z = .other y := by
  cases z <;> simp [OperandSize.width]

theorem valueFails_unsupportedSize {m : AddressingMethod} {z : OperandSize} {v : Value}
    (h : ValueFails m z v .unsupportedSize) : numericMethod m = true ∧ ∃ y, z = .other y := by
  cases h with
  | size hm hz => exact ⟨hm, width_eq_none_iff.mp hz⟩

theorem computeToken_ne_unsupportedSize (v : Variant) (e1 e2 : Option Operand) :
    computeToken v e1 e2 ≠ .error .unsupportedSize := by
  intro h
  rcases computeToken_error h with hk | hk <;> cases hk

/-- R95: the cause in a whole request. -/
theorem runPhases_unsupportedSize {r : Request} (h : (runPhases r).2 = some .unsupportedSize) :
    ∃ x ∈ requestSlots r, numericMethod x.1 = true ∧ ∃ y, x.2.1 = .other y := by
  obtain ⟨v, hv, ⟨-, hc, -⟩ | ⟨-, ⟨o, ho, hval⟩ | ⟨o, ho, hval⟩⟩⟩ := runPhases_failure_cause h (by decide)
  · exact absurd hc (computeToken_ne_unsupportedSize v r.eff1 r.eff2)
  · exact ⟨_, mem_requestSlots_iff.mpr (.inl (requestSlot1_of_eff hv ho)), valueFails_unsupportedSize hval⟩
  · exact ⟨_, mem_requestSlots_iff.mpr (.inr (requestSlot2_of_eff hv ho)), valueFails_unsupportedSize hval⟩

/-- R95: only the phases that write a value meet an unnamed size. -/
theorem phase_of_fails_unsupportedSize {t : Transient} (h : t.fails .unsupportedSize) :
    t.phase = .op1 ∨ t.phase = .op2 := by
  unfold Transient.fails at h
  rcases hp : t.phase <;> rw [hp] at h
  case token =>
    obtain ⟨-, v, -, hc⟩ := h
    exact absurd hc (computeToken_ne_unsupportedSize v _ _)
  case op1 => exact .inl rfl
  case op2 => exact .inr rfl
  all_goals cases h

/-- Settles O22: the whole request, the request in progress, and the two sides of R73's first check. -/
theorem unsupportedSizeNeedsANumericSlot : Obligations.UnsupportedSizeNeedsANumericSlot := by
  refine ⟨fun r s hf hw => ⟨_, exec_encode_of_wf hf hw, fun h => runPhases_unsupportedSize
    (ofFailure_eq_fault_iff.mp h)⟩, fun s s' t hf hold hs hnew => phase_of_fails_unsupportedSize
    (fails_of_step hf hold hs hnew), fun m y op hm => ?_, fun m y op hm => ⟨fun h => ?_, fun h => ?_⟩⟩
  · exact writeOperand_of_value_error ((writeValue_of_numeric hm _ _).trans (writeNumber_of_width_none rfl _))
  · obtain ⟨o, -, hval⟩ := writeSlot_error_cause (op := some op) h
    exact absurd (valueFails_unsupportedSize hval).1 (by simp [hm])
  · rcases tokenPart_error h with hk | hk <;> cases hk

end Sys2Proof.Machine
end

section
/-! The token phase of a good request in progress (42_encoder.md R85): the row that the sequencer picks completes the
token of R68, or is the `Register` part that an RMA slot has yet to complete (log 9). -/

namespace Sys2Proof.Machine

/-! ### The token rows as operations -/

theorem exec_tokAbs (g : Reg) (s : State) : exec (.tokAbs g) s = .next (s.putToken (tokenBits 0#2 g 5#3)) :=
  congrArg (fun p => Host.Outcome.next (s.putToken p)) (absToken_eq g)

theorem exec_tokNone (s : State) : exec .tokNone s = .next (s.putToken 0x00#8) := rfl

theorem modField_cases (mod : BitVec 2) : mod = 3#2 ∨ mod = 1#2 ∨ mod = 2#2 ∨ mod = 0#2 := by
  revert mod
  decide

/-- R51: the four register forms are told apart by the mod field. -/
theorem exec_tokenFormOfMod (mod : BitVec 2) (g b : Reg) (s : State) :
    exec (tokenFormOfMod mod g b) s = .next (s.putToken (tokenBits mod g b)) := by
  have hform (m : RegOrMemModifier) : Host.Outcome.next (s.putToken (rmaToken m g b)) =
      (.next (s.putToken (tokenBits (modField (modBits m)) g b)) : Host.Outcome State Fault Refusal) := by
    rw [rmaToken_eq]
  rcases modField_cases mod with rfl | rfl | rfl | rfl
  · exact hform .registerOnly
  · exact hform .registerDispShortPointer
  · exact hform .registerDispLongPointer
  · exact hform .registerPointer

/-! ### Which token fields the slots fill -/

theorem registerPart_eq (b : Byte) : registerPart b = tokenBits 0#2 (regField b) 0#3 := by
  revert b
  decide

theorem registerPart_or (b : Byte) : registerPart b ||| b = b := by
  revert b
  decide

theorem slotRegister_eq_zero {m : AddressingMethod} {op : Option Operand} (h : (m == .register && op.isSome) = false) :
    slotReg m op = 0#3 := by
  rcases op with _ | o
  · exact slotReg_none m
  · exact slotReg_of_ne (by simpa using h) _

theorem slotRma_eq_zero {m : AddressingMethod} {op : Option Operand}
    (h : (m == .registerOrMemoryAddress && op.isSome) = false) : slotMod m op = 0#2 ∧ slotRm m op = 0#3 := by
  rcases op with _ | o
  · exact ⟨slotMod_none m, slotRm_none m⟩
  · have hm : m ≠ .registerOrMemoryAddress := by simpa using h
    exact ⟨slotMod_of_ne hm _, slotRm_of_ne hm _⟩

theorem encodeToken_of_no_rma {v : Variant} {e1 e2 : Option Operand} (h : v.rmaContributes e1 e2 = false) :
    encodeToken v e1 e2 = tokenBits 0#2 (slotReg v.method1 e1 ||| slotReg v.method2 e2) 0#3 := by
  rw [Variant.rmaContributes, Bool.or_eq_false_iff] at h
  obtain ⟨h1, h2⟩ := h
  obtain ⟨hmod1, hrm1⟩ := slotRma_eq_zero h1
  obtain ⟨hmod2, hrm2⟩ := slotRma_eq_zero h2
  simp [encodeToken, hmod1, hmod2, hrm1, hrm2]

theorem encodeToken_of_none {v : Variant} {e1 e2 : Option Operand} (hr : v.registerContributes e1 e2 = false)
    (ha : v.rmaContributes e1 e2 = false) : encodeToken v e1 e2 = 0#8 := by
  rw [Variant.registerContributes, Bool.or_eq_false_iff] at hr
  obtain ⟨h1, h2⟩ := hr
  simp [encodeToken_of_no_rma ha, slotRegister_eq_zero h1, slotRegister_eq_zero h2]

/-- R52: a slot that `rmaIsAddress` accepts leaves mod 0, and leaves rm 0 or makes it 5. -/
theorem slotFields_of_rmaIsAddress {m : AddressingMethod} {op : Option Operand} (h : rmaIsAddress m op = true) :
    slotMod m op = 0#2 ∧ slotRm m op = if m == .registerOrMemoryAddress && op.isSome then 5#3 else 0#3 := by
  rcases hc : (m == .registerOrMemoryAddress && op.isSome) with _ | _
  · exact slotRma_eq_zero hc
  · simp only [Bool.and_eq_true, beq_iff_eq] at hc
    obtain ⟨rfl, hsome⟩ := hc
    obtain ⟨⟨v, c, ty⟩, rfl⟩ := Option.isSome_iff_exists.mp hsome
    cases v with
    | reg g => cases h
    | addr a => exact ⟨rfl, rfl⟩
    | imm n => cases h

theorem encodeToken_of_rmaIsAddress {v : Variant} {e1 e2 : Option Operand} (h : v.rmaContributes e1 e2 = true)
    (h1 : rmaIsAddress v.method1 e1 = true) (h2 : rmaIsAddress v.method2 e2 = true) :
    encodeToken v e1 e2 = tokenBits 0#2 (slotReg v.method1 e1 ||| slotReg v.method2 e2) 5#3 := by
  obtain ⟨hmod1, hrm1⟩ := slotFields_of_rmaIsAddress h1
  obtain ⟨hmod2, hrm2⟩ := slotFields_of_rmaIsAddress h2
  have hrm : slotRm v.method1 e1 ||| slotRm v.method2 e2 = 5#3 := by
    rw [hrm1, hrm2]
    rw [Variant.rmaContributes] at h
    generalize (v.method1 == .registerOrMemoryAddress && e1.isSome) = x at h
    generalize (v.method2 == .registerOrMemoryAddress && e2.isSome) = y at h
    revert h
    revert x y
    decide
  simp [encodeToken, hmod1, hmod2, hrm]

/-! ### The row that is run -/

/-- The token row that `tokenForm` picks completes the token, or is the `Register` part alone. -/
theorem exec_tokenForm {v : Variant} {e1 e2 : Option Operand} {soFar : Option Byte} {b : Byte} {s : State}
    (hc : computeToken v e1 e2 = .ok b) (hs : s.tokSoFar = soFar.getD 0#8)
    (hp : rmaPending s = v.rmaContributes e1 e2)
    (hpart : soFar = none ∨ v.rmaContributes e1 e2 = true ∧ soFar = some (registerPart b)) :
    (soFar = none ∧ v.registerContributes e1 e2 = true ∧ v.rmaContributes e1 e2 = true ∧
        exec (tokenForm v e1 e2 soFar b) s = .next (s.orToken (registerPart b))) ∨
      ∃ p, s.tokSoFar ||| p = b ∧ exec (tokenForm v e1 e2 soFar b) s = .next (s.putToken p) := by
  have hb := computeToken_eq_encodeToken hc
  have hor : s.tokSoFar ||| b = b := by
    rw [hs]
    rcases hpart with rfl | ⟨-, rfl⟩
    · exact BitVec.zero_or
    · exact registerPart_or b
  rcases hreg : (v.registerContributes e1 e2 && soFar.isNone) with _ | _
  · rcases hrma : v.rmaContributes e1 e2 with _ | _
    · have hnone : soFar = none := by simpa [hrma] using hpart
      have hzero : b = 0#8 := hb.trans (encodeToken_of_none (by simpa [hnone] using hreg) hrma)
      refine .inr ⟨0x00#8, by rw [← hzero, hor], ?_⟩
      simp [tokenForm, hreg, hrma, exec_tokNone]
    · refine .inr ⟨b, hor, ?_⟩
      rcases haddr : (rmaIsAddress v.method1 e1 && rmaIsAddress v.method2 e2) with _ | _
      · simp [tokenForm, hreg, hrma, haddr, exec_tokenFormOfMod, tokenBits_fields]
      · rw [Bool.and_eq_true] at haddr
        have hfields := encodeToken_of_rmaIsAddress hrma haddr.1 haddr.2
        simp [tokenForm, hreg, hrma, haddr, exec_tokAbs, hb, hfields]
  · rw [Bool.and_eq_true, Option.isNone_iff_eq_none] at hreg
    obtain ⟨hreg, rfl⟩ := hreg
    have hform : tokenForm v e1 e2 none b = .tokReg (regField b) := by simp [tokenForm, hreg]
    rcases hrma : v.rmaContributes e1 e2 with _ | _
    · have hfields : tokenBits 0#2 (regField b) 0#3 = b := by rw [hb, encodeToken_of_no_rma hrma, regField_tokenBits]
      exact .inr ⟨b, hor, by rw [hform, exec_tokReg_last (hp.trans hrma), hfields]⟩
    · exact .inl ⟨rfl, hreg, rfl, by rw [hform, exec_tokReg_pending (hp.trans hrma), registerPart_eq]⟩

end Sys2Proof.Machine
end

section
/-! The phased run (42_encoder.md R82): each step of a good request in progress keeps the state that the rest of the
request leads to and brings its end nearer, so that the run ends where the transaction does (log 1). -/

namespace Sys2Proof.Machine

/-! ### What is left of a request in progress -/

/-- The bytes of a correction that is still to come. -/
def correctionBytes (op : Option Operand) : List Byte :=
  match op with
  | none => []
  | some o => writeCorrection o.corr

/-- What is left of an operand's phase and of those after it; with the value written it is the correction (log 8). -/
def fromSlot (m : AddressingMethod) (z : OperandSize) (op : Option Operand) (valueDone : Bool)
    (rest : List Byte × Option Failure) : List Byte × Option Failure :=
  if valueDone then (correctionBytes op ++ rest.1, rest.2) else thenPhase (writeSlot m z op) rest

/-- What is left of a request in progress: its bytes, and the failure that ends it. -/
def Transient.remaining (t : Transient) : List Byte × Option Failure :=
  match t.phase, t.request.variant with
  | .opc, _ => runPhases t.request
  | .lookup, _ | .token, _ => fromLookup t.request
  | .op1, some v => fromSlot v.method1 v.size1 t.request.eff1 t.valueDone (fromOp2 t.request v)
  | .op2, some v => fromSlot v.method2 v.size2 t.request.eff2 t.valueDone ([], none)
  | .op1, none | .op2, none | .done, _ => ([], none)

/-- A bound on the steps that a request in progress still takes. -/
def Transient.stepsLeft (t : Transient) : Nat :=
  match t.phase with
  | .opc => 9
  | .lookup => 8
  | .token => if t.tok.isNone then 7 else 6
  | .op1 => if t.valueDone then 4 else 5
  | .op2 => if t.valueDone then 2 else 3
  | .done => 1

theorem stepsLeft_bounds (t : Transient) : 0 < t.stepsLeft ∧ t.stepsLeft ≤ 9 := by
  unfold Transient.stepsLeft
  cases t.phase with
  | opc | lookup | done => simp
  | token | op1 | op2 =>
    dsimp only
    split <;> decide

theorem stepsLeft_pos (t : Transient) : 0 < t.stepsLeft := (stepsLeft_bounds t).left

theorem stepsLeft_le (t : Transient) : t.stepsLeft ≤ 9 := (stepsLeft_bounds t).right

theorem remaining_op1 {r : Request} {v : Variant} (hv : r.variant = some v) (i : Option Nat) (tok : Option Byte)
    (d : Bool) : Transient.remaining ⟨r, .op1, i, tok, d⟩ = fromSlot v.method1 v.size1 r.eff1 d (fromOp2 r v) := by
  simp [Transient.remaining, hv]

theorem remaining_op2 {r : Request} {v : Variant} (hv : r.variant = some v) (i : Option Nat) (tok : Option Byte)
    (d : Bool) : Transient.remaining ⟨r, .op2, i, tok, d⟩ = fromSlot v.method2 v.size2 r.eff2 d ([], none) := by
  simp [Transient.remaining, hv]

/-- Bytes appended by a step are bytes that are no longer to come. -/
theorem settle_of_appended {s s' : State} {bs : List Byte} (hs : s'.sink = s.sink ++ bs)
    (hm : s'.refusalMark = s.refusalMark) (hb : s'.inbox = s.inbox) (out : List Byte × Option Failure) :
    s'.settle out = s.settle (bs ++ out.1, out.2) := by
  simp [State.settle, hs, hm, hb]

/-- One step of the request t in progress at s: to its end, or on to a good request in progress that leads to the same
end in fewer steps. -/
inductive Progress (t : Transient) (s : State) : State → Prop where
  | ends : Progress t s (s.settle t.remaining)
  | goesOn {s' : State} {t' : Transient} (hf : s'.inFlight = some t') (hg : GoodFlight t')
      (hless : t'.stepsLeft < t.stepsLeft) (hsame : s'.settle t'.remaining = s.settle t.remaining)
      (hbox : s'.inbox = s.inbox) : Progress t s s'

/-- A step to s' that makes progress. -/
def StepsOn (t : Transient) (s : State) : Prop := ∃ s', step s = .next s' ∧ Progress t s s'

theorem stepsOn_raise {t : Transient} {s : State} {k : Failure} (hs : step s = .next (s.raise k))
    (hr : t.remaining = ([], some k)) : StepsOn t s :=
  ⟨_, hs, by rw [← State.settle_raise, ← hr]; exact .ends⟩

/-- A step that appends bytes and goes on to t'. -/
theorem stepsOn_append {t t' : Transient} {s s' : State} {bs : List Byte} (hs : step s = .next s')
    (hf : s'.inFlight = some t') (hg : GoodFlight t') (hless : t'.stepsLeft < t.stepsLeft)
    (hsink : s'.sink = s.sink ++ bs) (hm : s'.refusalMark = s.refusalMark) (hb : s'.inbox = s.inbox)
    (hr : t.remaining = (bs ++ t'.remaining.1, t'.remaining.2)) : StepsOn t s :=
  ⟨s', hs, .goesOn hf hg hless (by rw [settle_of_appended hsink hm hb, hr]) hb⟩

/-! ### The operand phases -/

/-- The row that `valueForm` picks appends the value's bytes and sets the value mark. -/
theorem exec_valueForm {m : AddressingMethod} {z : OperandSize} {v : Value} {i : Instr}
    (h : valueForm m z v = .ok i) :
    ∃ bs, writeValue m z v = .ok bs ∧ ∀ s, exec i s = .next (s.append bs).valueWritten := by
  have hnone (s : State) : Host.Outcome.next s.valueWritten =
      (.next (s.append []).valueWritten : Host.Outcome State Fault Refusal) := by rw [State.append_nil]
  cases m with
  | memoryAddress | directAddress | immediateData =>
    rcases hn : fitNumber z v with k | n <;> simp only [valueForm, hn] at h <;> cases h
    exact ⟨n.bytes, by simp [writeValue, writeNumber, hn], fun s => by cases n <;> rfl⟩
  | registerOrMemoryAddress =>
    rcases ha : rmaAddress v with k | _ | a <;> simp only [valueForm, ha] at h <;> cases h
    · exact ⟨[], by simp [writeValue, writeRmaValue, ha], hnone⟩
    · exact ⟨wU32 a, by simp only [writeValue, writeRmaValue, ha], fun s => rfl⟩
  | none | register | relativeOffset | other x =>
    cases h
    exact ⟨[], rfl, hnone⟩

/-- What a step of an operand's phase does to the sink, and what is left after it. -/
theorem step_operand {m : AddressingMethod} {z : OperandSize} {op : Option Operand} {t : Transient} {s : State}
    (hact : nextAction s = operandAction m z op t s) (hd : t.valueDone = true → op.isSome = true)
    (rest : List Byte × Option Failure) :
    (∃ k, step s = .next (s.raise k) ∧ fromSlot m z op t.valueDone rest = ([], some k)) ∨
      (∃ bs, step s = .next (s.append bs).advance ∧
        fromSlot m z op t.valueDone rest = (bs ++ rest.1, rest.2)) ∨
      t.valueDone = false ∧ op.isSome = true ∧ ∃ bs, step s = .next (s.append bs).valueWritten ∧
        fromSlot m z op false rest = (bs ++ (fromSlot m z op true rest).1, (fromSlot m z op true rest).2) := by
  rcases op with _ | o
  · have hd' : t.valueDone = false := by simpa using hd
    exact .inr (.inl ⟨[], by rw [step_of_goto hact, State.append_nil], by simp [fromSlot, hd']⟩)
  rcases hdone : t.valueDone with _ | _
  · rcases hv : valueForm m z o.value with k | i
    · have hw := writeOperand_of_value_error (valueForm_error_iff.mp hv)
      have hraise : nextAction s = .goto (s.raise k) := by rw [hact]; simp [operandAction, hdone, hv]
      exact .inl ⟨k, step_of_goto hraise, by simp [fromSlot, hw]⟩
    · obtain ⟨bs, hw, hexec⟩ := exec_valueForm hv
      have hrun : nextAction s = .run i s := by rw [hact]; simp [operandAction, hdone, hv]
      exact .inr (.inr ⟨rfl, rfl, bs, by rw [step_of_run hrun, hexec],
        by simp [fromSlot, writeOperand_of_value_ok hw, correctionBytes]⟩)
  · refine .inr (.inl ⟨writeCorrection o.corr, ?_, by simp [fromSlot, correctionBytes]⟩)
    rcases o with ⟨v, c, ty⟩
    cases c with
    | noCorr =>
      have hgoto : nextAction s = .goto s.advance := by rw [hact]; simp [operandAction, hdone]
      rw [step_of_goto hgoto, writeCorrection, State.append_nil]
    | short d =>
      have hrun : nextAction s = .run (.disp8 d) s := by rw [hact]; simp [operandAction, hdone]
      exact step_of_run hrun
    | long d =>
      have hrun : nextAction s = .run (.disp32 d) s := by rw [hact]; simp [operandAction, hdone]
      exact step_of_run hrun

section
variable {r : Request} {v : Variant} {tok : Option Byte} {d : Bool} {s : State}

theorem stepsOn_op1 (hw : r.opcode.wf = true) (hv : r.variant = some v) (htok : TokenIs r v tok)
    (hd : d = true → r.eff1.isSome = true)
    (hf : s.inFlight = some ⟨r, .op1, firstIndex r.opcode.mnemonics r.mnemonic, tok, d⟩)
    (hact : nextAction s = phaseAction ⟨r, .op1, firstIndex r.opcode.mnemonics r.mnemonic, tok, d⟩ s) :
    StepsOn ⟨r, .op1, firstIndex r.opcode.mnemonics r.mnemonic, tok, d⟩ s := by
  simp only [phaseAction, variant_of_index, hv] at hact
  rcases step_operand hact hd (fromOp2 r v) with ⟨k, hs, hr⟩ | ⟨bs, hs, hr⟩ | ⟨rfl, hsome, bs, hs, hr⟩
  · exact stepsOn_raise hs ((remaining_op1 hv ..).trans hr)
  · refine stepsOn_append (t' := ⟨r, .op2, _, tok, false⟩) hs (by simp [hf, Phase.next])
      (.op2 hw hv htok (by simp)) ?_ rfl rfl rfl ?_
    · cases d <;> simp [Transient.stepsLeft]
    · rw [remaining_op1 hv, remaining_op2 hv]
      exact hr
  · refine stepsOn_append (t' := ⟨r, .op1, _, tok, true⟩) hs (by simp [hf]) (.op1 hw hv htok fun _ => hsome)
      ?_ rfl rfl rfl ?_
    · simp [Transient.stepsLeft]
    · rw [remaining_op1 hv, remaining_op1 hv]
      exact hr

theorem stepsOn_op2 (hw : r.opcode.wf = true) (hv : r.variant = some v) (htok : TokenIs r v tok)
    (hd : d = true → r.eff2.isSome = true)
    (hf : s.inFlight = some ⟨r, .op2, firstIndex r.opcode.mnemonics r.mnemonic, tok, d⟩)
    (hact : nextAction s = phaseAction ⟨r, .op2, firstIndex r.opcode.mnemonics r.mnemonic, tok, d⟩ s) :
    StepsOn ⟨r, .op2, firstIndex r.opcode.mnemonics r.mnemonic, tok, d⟩ s := by
  simp only [phaseAction, variant_of_index, hv] at hact
  rcases step_operand hact hd ([], none) with ⟨k, hs, hr⟩ | ⟨bs, hs, hr⟩ | ⟨rfl, hsome, bs, hs, hr⟩
  · exact stepsOn_raise hs ((remaining_op2 hv ..).trans hr)
  · refine stepsOn_append (t' := ⟨r, .done, _, tok, false⟩) hs (by simp [hf, Phase.next]) (.done hw hv htok)
      ?_ rfl rfl rfl ?_
    · cases d <;> simp [Transient.stepsLeft]
    · rw [remaining_op2 hv]
      exact hr
  · refine stepsOn_append (t' := ⟨r, .op2, _, tok, true⟩) hs (by simp [hf]) (.op2 hw hv htok fun _ => hsome)
      ?_ rfl rfl rfl ?_
    · simp [Transient.stepsLeft]
    · rw [remaining_op2 hv, remaining_op2 hv]
      exact hr

/-! ### The phases before the operands -/

theorem stepsOn_token (hw : r.opcode.wf = true) (hv : r.variant = some v)
    (htok : tok = none ∨ RegisterPartIs r v tok)
    (hf : s.inFlight = some ⟨r, .token, firstIndex r.opcode.mnemonics r.mnemonic, tok, false⟩)
    (hact : nextAction s = phaseAction ⟨r, .token, firstIndex r.opcode.mnemonics r.mnemonic, tok, false⟩ s) :
    StepsOn ⟨r, .token, firstIndex r.opcode.mnemonics r.mnemonic, tok, false⟩ s := by
  have hrem : Transient.remaining ⟨r, .token, firstIndex r.opcode.mnemonics r.mnemonic, tok, false⟩ = fromToken r v :=
    fromLookup_of_variant hv
  simp only [phaseAction, variant_of_index, hv, tokenAction] at hact
  rcases hh : r.opcode.hasRegisterToken with _ | _ <;>
    simp only [hh, Bool.false_eq_true, if_false, if_true] at hact
  · have hnone : tok = none := by
      rcases htok with h | ⟨h, -⟩
      · exact h
      · rw [hh] at h
        cases h
    refine stepsOn_append (t' := ⟨r, .op1, _, tok, false⟩) (bs := []) (step_of_goto hact) (by simp [hf, Phase.next])
      (.op1 hw hv (.inr ⟨hh, hnone⟩) (by simp)) ?_ (by simp) rfl rfl ?_
    · simp [Transient.stepsLeft, hnone]
    · rw [hrem, remaining_op1 hv, fromToken, hh, writeToken_false]
      rfl
  rcases hc : computeToken v r.eff1 r.eff2 with k | b <;> simp only [hc] at hact
  · refine stepsOn_raise (step_of_goto hact) ?_
    rw [hrem, fromToken, hh, writeToken_of_error hc, thenPhase_error]
  have hpart : tok = none ∨ v.rmaContributes r.eff1 r.eff2 = true ∧ tok = some (registerPart b) := by
    rcases htok with h | ⟨-, -, hrma, b', hb', h⟩
    · exact .inl h
    · cases hc.symm.trans hb'
      exact .inr ⟨hrma, h⟩
  rcases exec_tokenForm (s := s) hc (by simp [State.tokSoFar, hf]) (by simp [rmaPending, hf, hv]) hpart with
    ⟨rfl, hreg, hrma, hexec⟩ | ⟨p, hp, hexec⟩
  · have hzero : s.tokSoFar = 0#8 := by simp [State.tokSoFar, hf]
    refine stepsOn_append (t' := ⟨r, .token, _, some (registerPart b), false⟩) (bs := [])
      ((step_of_run hact).trans hexec) (by simp [hf, hzero]) (.token hw hv (.inr ⟨hh, hreg, hrma, b, hc, rfl⟩)) ?_
      (by simp) rfl rfl ?_
    · simp [Transient.stepsLeft]
    · rfl
  · refine stepsOn_append (t' := ⟨r, .op1, _, some b, false⟩) (bs := [b]) ((step_of_run hact).trans hexec)
      (by simp [hf, hp, Phase.next]) (.op1 hw hv (.inl ⟨hh, b, hc, rfl⟩) (by simp)) ?_ (by simp [hp]) rfl rfl ?_
    · cases tok <;> simp [Transient.stepsLeft]
    · rw [hrem, remaining_op1 hv, fromToken, hh, writeToken_of_ok hc]
      rfl

theorem stepsOn_lookup (hw : r.opcode.wf = true) (hf : s.inFlight = some ⟨r, .lookup, none, none, false⟩)
    (hact : nextAction s = phaseAction ⟨r, .lookup, none, none, false⟩ s) :
    StepsOn ⟨r, .lookup, none, none, false⟩ s := by
  simp only [phaseAction] at hact
  rcases hi : firstIndex r.opcode.mnemonics r.mnemonic with _ | i <;> simp only [hi] at hact
  · refine stepsOn_raise (step_of_goto hact) (fromLookup_of_variant_none ?_)
    simp [Request.variant, hi]
  · obtain ⟨v, hv⟩ : ∃ v, r.variant = some v := by
      rw [← Option.ne_none_iff_exists', ne_eq, variant_eq_none_iff hw, ← firstIndex_eq_none_iff, hi]
      simp
    refine stepsOn_append (t' := ⟨r, .token, _, none, false⟩) (bs := []) (step_of_goto hact)
      (by simp [hf, hi, Phase.next]) (.token hw hv (.inl rfl)) ?_ (by simp) rfl rfl rfl
    simp [Transient.stepsLeft]

theorem stepsOn_opc (hw : r.opcode.wf = true) (hf : s.inFlight = some ⟨r, .opc, none, none, false⟩)
    (hact : nextAction s = phaseAction ⟨r, .opc, none, none, false⟩ s) : StepsOn ⟨r, .opc, none, none, false⟩ s := by
  obtain ⟨hlen, -⟩ := OpCode.wf_iff.mp hw
  obtain ⟨b, hb⟩ := List.length_eq_one_iff.mp hlen
  simp only [phaseAction, hb] at hact
  refine stepsOn_append (t' := ⟨r, .lookup, none, none, false⟩) (step_of_run hact) (by simp [hf, Phase.next])
    (.lookup hw) (by simp [Transient.stepsLeft]) rfl rfl rfl ?_
  rw [show Transient.remaining ⟨r, .opc, none, none, false⟩ = runPhases r from rfl, runPhases_eq, writeOpcode, hb]
  rfl

theorem stepsOn_done (hact : nextAction s = .goto s.complete) (t : Transient) (hr : t.remaining = ([], none)) :
    StepsOn t s :=
  ⟨_, step_of_goto hact, by rw [← State.settle_complete, ← hr]; exact .ends⟩

end

/-- R82, R101: a good request in progress that no rival interrupts makes progress. -/
theorem stepsOn_of_good {t : Transient} {s : State} (hg : GoodFlight t) (hf : s.inFlight = some t)
    (hact : nextAction s = phaseAction t s) : StepsOn t s := by
  cases hg with
  | opc hw => exact stepsOn_opc hw hf hact
  | lookup hw => exact stepsOn_lookup hw hf hact
  | token hw hv htok => exact stepsOn_token hw hv htok hf hact
  | op1 hw hv htok hd => exact stepsOn_op1 hw hv htok hd hf hact
  | op2 hw hv htok hd => exact stepsOn_op2 hw hv htok hd hf hact
  | done hw hv htok => exact stepsOn_done hact _ rfl

end Sys2Proof.Machine
end

section
/-! The whole machine's obligations on good states: every step answers a good state (10_state.md R28), the phased run
ends where the transaction does (log 1), and every request in progress ends (60_exceptions.md R101). -/

namespace Sys2Proof.Machine

/-! ### Runs -/

theorem run_zero (s : State) : Sys2Proof.core.run 0 s = .next s := rfl

theorem run_succ_of_step {s s' : State} (h : step s = .next s') (n : Nat) :
    Sys2Proof.core.run (n + 1) s = Sys2Proof.core.run n s' := by
  have hcore : Sys2Proof.core.step s = .next s' := h
  simp only [Host.Core.run, hcore]

/-! ### One step from a good state -/

theorem good_of_idle {s : State} (hf : s.inFlight = none) : s.Good = true := by
  simp [State.Good, hf]

theorem good_of_inFlight {s : State} {t : Transient} (hf : s.inFlight = some t) (hg : GoodFlight t) :
    s.Good = true := by
  simp [State.Good, hf, good_of_goodFlight hg]

theorem good_of_progress {t : Transient} {s s' : State} (h : Progress t s s') : s'.Good = true := by
  cases h with
  | ends => exact good_of_idle rfl
  | goesOn hf hg _ _ _ => exact good_of_inFlight hf hg

/-- Settles O44: an idle block, a rival, and a request in progress that goes on. -/
theorem goodStatesStepToGoodStates : Obligations.GoodStatesStepToGoodStates := by
  intro s hg
  rcases hf : s.inFlight with _ | t
  · rcases step_idle hf with ⟨-, h⟩ | ⟨a, rest, -, ⟨-, ha, h⟩ | h⟩
    · exact ⟨s, h, hg⟩
    · exact ⟨_, h, good_of_inFlight rfl (.opc ((admission_idle_iff _).mp ha))⟩
    · rw [exec_instrOf, exec_request rfl] at h
      exact ⟨_, h, good_of_idle (by rw [transact_inFlight]; exact hf)⟩
  · have hgt := goodFlight_of_state hg hf
    rcases step_busy hf with ⟨a, rest, hb, hd, -⟩ | hact
    · exact ⟨_, step_rival hf hb hd, good_of_inFlight (t := t) hf hgt⟩
    · obtain ⟨s', hs, hprog⟩ := stepsOn_of_good hgt hf hact
      exact ⟨s', hs, good_of_progress hprog⟩

/-! ### The phased run is the transaction -/

/-- The caller's next request waits for the one in progress. -/
def Waits (inbox : List Arrival) : Prop := ∀ a, inbox.head? = some a → a.during = none

theorem nextAction_of_waits {s : State} {t : Transient} (hf : s.inFlight = some t) (hb : Waits s.inbox) :
    nextAction s = phaseAction t s := by
  rcases step_busy hf with ⟨a, rest, hbox, hd, -⟩ | hact
  · rw [hb a (by simp [hbox])] at hd
    cases hd
  · exact hact

/-- R82: a good request in progress that nothing interrupts runs to the end that is left of it. -/
theorem run_of_good {n : Nat} {s : State} {t : Transient} (hg : GoodFlight t) (hf : s.inFlight = some t)
    (hb : Waits s.inbox) (hn : t.stepsLeft ≤ n) :
    ∃ k ≤ n, Sys2Proof.core.run k s = .next (s.settle t.remaining) := by
  induction n generalizing s t with
  | zero => exact absurd (stepsLeft_pos t) (by omega)
  | succ n ih =>
    obtain ⟨s', hs, hprog⟩ := stepsOn_of_good hg hf (nextAction_of_waits hf hb)
    cases hprog with
    | ends => exact ⟨1, by omega, (run_succ_of_step hs 0).trans (run_zero _)⟩
    | goesOn hf' hg' hless hsame hbox =>
      obtain ⟨k, hk, hrun⟩ := ih hg' hf' (hbox ▸ hb) (by omega)
      exact ⟨k + 1, by omega, by rw [run_succ_of_step hs, hrun, hsame]⟩

/-- Settles O45: a request that admission turns away is refused in one step; an admitted one starts and runs to the end
of its phases. -/
theorem phasedRunEqualsTheTransaction : Obligations.PhasedRunEqualsTheTransaction := by
  intro s r d rest hf hbox hwait
  have hidle : ({ s with inbox := rest } : State).inFlight = none := hf
  rcases ha : admission false r with _ | why
  · have hw := (admission_idle_iff r).mp ha
    have hstep : step s = .next (({ s with inbox := rest } : State).begin r) :=
      step_of_goto (by simp [nextAction, hf, hbox, issue, ha])
    obtain ⟨k, hk, hrun⟩ := run_of_good (n := 9) (s := ({ s with inbox := rest } : State).begin r) (.opc hw) rfl hwait
      (stepsLeft_le _)
    refine ⟨k + 1, by omega, ?_⟩
    rw [run_succ_of_step hstep, hrun, exec_request rfl, transact_eq_settle hidle hw]
    rfl
  · have hstep : step s = exec (.encode r) { s with inbox := rest } := by
      rw [← exec_instrOf]
      exact step_of_run (by simp [nextAction, hf, hbox, issue, ha])
    exact ⟨1, by omega, run_succ_of_step hstep 0⟩

/-! ### Every request in progress ends -/

/-- A bound on the steps to idleness: those of the request in progress, and one for each request that may be refused
meanwhile. -/
def State.stepsToIdle (s : State) : Nat :=
  match s.inFlight with
  | none => 0
  | some t => t.stepsLeft + s.inbox.length

theorem stepsToIdle_of_inFlight {s : State} {t : Transient} (hf : s.inFlight = some t) :
    s.stepsToIdle = t.stepsLeft + s.inbox.length := by
  simp [State.stepsToIdle, hf]

/-- R101: a step of a busy good state is nearer to idleness. -/
theorem stepsToIdle_lt_of_step {s : State} {t : Transient} (hg : GoodFlight t) (hf : s.inFlight = some t) :
    ∃ s', step s = .next s' ∧ s'.Good = true ∧ s'.stepsToIdle < s.stepsToIdle := by
  rw [stepsToIdle_of_inFlight hf]
  rcases step_busy hf with ⟨a, rest, hb, hd, -⟩ | hact
  · refine ⟨_, step_rival hf hb hd, good_of_inFlight (t := t) hf hg, ?_⟩
    have hrival : (({ s with inbox := rest } : State).refuse .sharedSink).stepsToIdle = t.stepsLeft + rest.length :=
      stepsToIdle_of_inFlight hf
    rw [hrival, hb, List.length_cons]
    omega
  · obtain ⟨s', hs, hprog⟩ := stepsOn_of_good hg hf hact
    refine ⟨s', hs, good_of_progress hprog, ?_⟩
    cases hprog with
    | ends => exact Nat.add_pos_left (stepsLeft_pos t) _
    | goesOn hf' hg' hless hsame hbox =>
      rw [stepsToIdle_of_inFlight hf', hbox]
      omega

theorem run_to_idle {n : Nat} {s : State} (hg : s.Good = true) (hn : s.stepsToIdle ≤ n) :
    ∃ k t, k ≤ n ∧ Sys2Proof.core.run k s = .next t ∧ t.inFlight = none := by
  induction n generalizing s with
  | zero =>
    rcases hf : s.inFlight with _ | t
    · exact ⟨0, s, le_rfl, run_zero s, hf⟩
    · obtain ⟨s', -, -, hlt⟩ := stepsToIdle_lt_of_step (goodFlight_of_state hg hf) hf
      omega
  | succ n ih =>
    rcases hf : s.inFlight with _ | t
    · exact ⟨0, s, Nat.zero_le _, run_zero s, hf⟩
    · obtain ⟨s', hs, hg', hlt⟩ := stepsToIdle_lt_of_step (goodFlight_of_state hg hf) hf
      obtain ⟨k, u, hk, hrun, hu⟩ := ih hg' (by omega)
      exact ⟨k + 1, u, by omega, (run_succ_of_step hs k).trans hrun, hu⟩

/-- Settles O46: the bound on the steps to idleness. -/
theorem requestInProgressAlwaysEnds : Obligations.RequestInProgressAlwaysEnds := by
  intro s hg
  have hle : s.stepsToIdle ≤ 9 + s.inbox.length := by
    rcases hf : s.inFlight with _ | t
    · simp [State.stepsToIdle, hf]
    · have := stepsLeft_le t
      rw [stepsToIdle_of_inFlight hf]
      omega
  exact run_to_idle hg hle

end Sys2Proof.Machine
end

section
/-! The encoder and the decoder (30_encoding.md): a field's bytes read back as what they encode, and bytes that decode
are the encoding of what they decode to. -/

namespace Sys2Proof.Machine

/-! ### Words and their bytes (R53) -/

@[simp] theorem append_extract16 (v : BitVec 16) : v.extractLsb' 8 8 ++ v.extractLsb' 0 8 = v :=
  (BitVec.extractLsb'_append_extractLsb'_eq_extractLsb' rfl).trans BitVec.extractLsb'_eq_self

@[simp] theorem append_extract32 (v : BitVec 32) :
    v.extractLsb' 24 8 ++ v.extractLsb' 16 8 ++ v.extractLsb' 8 8 ++ v.extractLsb' 0 8 = v := by
  rw [BitVec.extractLsb'_append_extractLsb'_eq_extractLsb' (start₂ := 24) (start₁ := 16) rfl,
    BitVec.extractLsb'_append_extractLsb'_eq_extractLsb' (start₂ := 16) (start₁ := 8) rfl,
    BitVec.extractLsb'_append_extractLsb'_eq_extractLsb' (start₂ := 8) (start₁ := 0) rfl]
  exact BitVec.extractLsb'_eq_self

@[simp] theorem bytesLe16_append (b0 b1 : Byte) : bytesLe16 (b1 ++ b0) = [b0, b1] := by
  rw [bytesLe16, BitVec.extractLsb'_append_eq_right, BitVec.extractLsb'_append_eq_left]

@[simp] theorem bytesLe32_append (b0 b1 b2 b3 : Byte) : bytesLe32 (b3 ++ b2 ++ b1 ++ b0) = [b0, b1, b2, b3] := by
  have h0 : (b3 ++ b2 ++ b1 ++ b0).extractLsb' 0 8 = b0 := BitVec.extractLsb'_append_eq_right
  have h1 : (b3 ++ b2 ++ b1 ++ b0).extractLsb' 8 8 = b1 :=
    (BitVec.extractLsb'_append_eq_of_le (by decide)).trans BitVec.extractLsb'_append_eq_right
  have h2 : (b3 ++ b2 ++ b1 ++ b0).extractLsb' 16 8 = b2 :=
    (BitVec.extractLsb'_append_eq_of_le (by decide)).trans
      ((BitVec.extractLsb'_append_eq_of_le (by decide)).trans BitVec.extractLsb'_append_eq_right)
  have h3 : (b3 ++ b2 ++ b1 ++ b0).extractLsb' 24 8 = b3 :=
    (BitVec.extractLsb'_append_eq_of_le (by decide)).trans
      ((BitVec.extractLsb'_append_eq_of_le (by decide)).trans BitVec.extractLsb'_append_eq_left)
  rw [bytesLe32, h0, h1, h2, h3]

/-! ### The rows' fields -/

theorem encode_tokenFormOfMod (mod : BitVec 2) (g b : Reg) :
    encode (tokenFormOfMod mod g b) = [tokenBits mod g b] := by
  rcases modField_cases mod with rfl | rfl | rfl | rfl <;> rfl

theorem decode_encode_row {i : Instr} (hi : placedRequest i = none) : decode i.field (encode i) = .ok i := by
  cases i with
  | encode r => cases hi
  | add o1 o2 => cases hi
  | tokRegonly g b | tokRegptr g b | tokDisp8 g b | tokDisp32 g b =>
    simp [Instr.field, encode, decode, tokenFormOfMod]
  | tokAbs g | tokReg g => simp [Instr.field, encode, decode]
  | imm16 v => simp [Instr.field, encode, decode, bytesLe16]
  | imm32 v | addr32 v | disp32 v => simp [Instr.field, encode, decode, bytesLe32]
  | opc _ | imm8 _ | disp8 _ | tokNone | novalueRel | novalue => rfl

/-- The mnemonic of what is read is the reader's own (R59). -/
theorem readRequest_mnemonic {template r : Request} {bs : List Byte} (h : readRequest template bs = .ok r) :
    r.mnemonic = template.mnemonic := by
  unfold readRequest at h
  split at h
  · cases h
  split at h
  · cases h
  split at h
  · cases h
  split at h
  · cases h
  split at h
  · cases h
  split at h <;> cases h
  rfl

/-- Settles O48: a row by its field's shape; a request is held against the encoder. -/
theorem encodeOfDecodeIsTheBytes : Obligations.EncodeOfDecodeIsTheBytes := by
  intro f bs i h
  cases f with
  | opcode | imm8 | disp8 =>
    rcases bs with _ | ⟨b, _ | ⟨b1, rest⟩⟩ <;> cases h
    rfl
  | tokenRma =>
    rcases bs with _ | ⟨t, _ | ⟨b1, rest⟩⟩ <;> cases h
    rw [encode_tokenFormOfMod, tokenBits_fields]
  | tokenAbs | tokenReg =>
    rcases bs with _ | ⟨t, _ | ⟨b1, rest⟩⟩
    · cases h
    · simp only [decode] at h
      split at h <;> cases h
      rename_i hfix
      rw [encode, ← hfix.1, ← hfix.2, tokenBits_fields]
    · cases h
  | tokenNone =>
    rcases bs with _ | ⟨t, _ | ⟨b1, rest⟩⟩
    · cases h
    · simp only [decode] at h
      split at h <;> cases h
      rename_i hfix
      rw [encode, hfix]
    · cases h
  | imm16 =>
    rcases bs with _ | ⟨b0, _ | ⟨b1, _ | ⟨b2, rest⟩⟩⟩ <;> cases h
    exact bytesLe16_append b0 b1
  | imm32 | addr32 | disp32 =>
    rcases bs with _ | ⟨b0, _ | ⟨b1, _ | ⟨b2, _ | ⟨b3, _ | ⟨b4, rest⟩⟩⟩⟩⟩ <;> cases h
    exact bytesLe32_append b0 b1 b2 b3
  | novalueRel | novalue =>
    rcases bs with _ | ⟨b, rest⟩ <;> cases h
    rfl
  | request template =>
    simp only [decode] at h
    split at h
    · cases h
    · split_ifs at h with hwf henc
      cases h
      exact henc
  | add t1 t2 =>
    simp only [decode] at h
    split at h
    · cases h
    · rename_i r hread
      split_ifs at h with hwf henc
      cases h
      obtain ⟨hbytes, hop⟩ := henc
      have hadd : addRequest r.op1 r.op2 = r := by
        rw [addRequest, ← hop, ← show r.mnemonic = Mnemonic.add from readRequest_mnemonic hread]
      rw [encode, hadd, hbytes]

/-! ### Reading a slot back -/

theorem readCorrection_encodeCorrection (c : Correction) (rest : List Byte) :
    readCorrection (eraseCorrection c) (encodeCorrection c ++ rest) = .ok (c, rest) := by
  cases c with
  | noCorr => rfl
  | short d => rfl
  | long d => simp [eraseCorrection, encodeCorrection, bytesLe32, readCorrection]

/-- The token holds the code of the register that the slot's operand is (R49). -/
def TokenHolds (t : Byte) (m : AddressingMethod) (v : Value) : Prop :=
  ∀ g, v = .reg g → (m = .register → regField t = g) ∧ (m = .registerOrMemoryAddress → rmField t = g)

theorem truncate_zeroExtend {w n : Nat} (hw : n ≤ w) {k : BitVec w} (hk : k.toNat < 2 ^ n) :
    (BitVec.ofNat n k.toNat).zeroExtend w = k := by
  apply BitVec.eq_of_toNat_eq
  have hle : 2 ^ n ≤ 2 ^ w := Nat.pow_le_pow_right (by decide) hw
  simp only [BitVec.truncate_eq_setWidth, BitVec.toNat_setWidth, BitVec.toNat_ofNat, Nat.mod_eq_of_lt hk]
  exact Nat.mod_eq_of_lt (by omega)

/-- A number that fits its slot reads back. -/
theorem readValue_encodeNumber {z : OperandSize} {w n : Nat} {v : Value} (hz : z.width = some w)
    (hv : v.number = some n) (hn : n < 2 ^ (8 * w)) (hasToken : Bool) (t : Byte) (rest : List Byte) :
    readValue hasToken t .immediateData z (eraseValue hasToken .immediateData v) (encodeNumber z n ++ rest) =
      .ok (v, rest) := by
  cases v with
  | reg g => cases hv
  | addr a =>
    cases hv
    cases z with
    | other y => cases hz
    | byte => cases hz; simpa [eraseValue, encodeNumber, readValue] using truncate_zeroExtend (by decide) hn
    | word => cases hz; simpa [eraseValue, encodeNumber, bytesLe16, readValue] using truncate_zeroExtend (by decide) hn
    | dword => cases hz; simp [eraseValue, encodeNumber, bytesLe32, readValue]
  | imm k =>
    cases hv
    cases z with
    | other y => cases hz
    | byte => cases hz; simpa [eraseValue, encodeNumber, readValue] using truncate_zeroExtend (by decide) hn
    | word => cases hz; simpa [eraseValue, encodeNumber, bytesLe16, readValue] using truncate_zeroExtend (by decide) hn
    | dword => cases hz; simpa [eraseValue, encodeNumber, bytesLe32, readValue] using truncate_zeroExtend (by decide) hn

theorem readValue_of_numeric {m : AddressingMethod} (hm : numericMethod m = true) (hasToken : Bool) (t : Byte)
    (z : OperandSize) (v : Value) (bs : List Byte) :
    readValue hasToken t m z (eraseValue hasToken m v) bs =
      readValue hasToken t .immediateData z (eraseValue hasToken .immediateData v) bs := by
  rcases numericMethod_iff.mp hm with rfl | rfl | rfl <;> rfl

/-- A value that its slot takes reads back, from the token or from its bytes. -/
theorem readValue_encodeValue {hasToken : Bool} {t : Byte} {m : AddressingMethod} {z : OperandSize} {o : Operand}
    (hok : slotOk hasToken m z o = true) (ht : hasToken = true → TokenHolds t m o.value) (rest : List Byte) :
    readValue hasToken t m z (eraseValue hasToken m o.value) (encodeValue m z o.value ++ rest) =
      .ok (o.value, rest) := by
  rcases hm : numericMethod m with _ | _
  · rcases o with ⟨v, c, ty⟩
    cases m with
    | memoryAddress | directAddress | immediateData => cases hm
    | none | relativeOffset | other x => rfl
    | register =>
      cases v with
      | addr a | imm n => rfl
      | reg g =>
        cases hasToken with
        | false => rfl
        | true => simp [readValue, eraseValue, encodeValue, (ht rfl g rfl).1 rfl]
    | registerOrMemoryAddress =>
      cases v with
      | addr a => simp [readValue, eraseValue, encodeValue, bytesLe32]
      | imm n =>
        have hn : n.toNat < 2 ^ 32 := by
          simp only [slotOk, Bool.and_eq_true, decide_eq_true_eq] at hok
          exact hok.2
        have hback : (n.truncate 32).zeroExtend 64 = n := truncate_zeroExtend (by decide) hn
        simpa [readValue, eraseValue, encodeValue, bytesLe32] using hback
      | reg g =>
        cases hasToken with
        | false => rfl
        | true => simp [readValue, eraseValue, encodeValue, (ht rfl g rfl).2 rfl]
  · obtain ⟨w, n, hz, hv, hn⟩ := (slotOk_of_numeric hm hasToken z o).mp hok
    rw [readValue_of_numeric hm, encodeValue_of_numeric hm, hv]
    exact readValue_encodeNumber hz hv hn hasToken t rest

theorem readSlot_encodeSlot {hasToken : Bool} {t : Byte} {m : AddressingMethod} {z : OperandSize} {op : Option Operand}
    (hok : ∀ o, op = some o → slotOk hasToken m z o = true)
    (ht : hasToken = true → ∀ o, op = some o → TokenHolds t m o.value) (rest : List Byte) :
    readSlot hasToken t m z (eraseOperand hasToken m op) (encodeSlot m z op ++ rest) = .ok (op, rest) := by
  cases op with
  | none => rfl
  | some o =>
    have hvalue := readValue_encodeValue (hok o rfl) (fun h => ht h o rfl) (encodeCorrection o.corr ++ rest)
    simp only [eraseOperand, Option.map_some, readSlot, encodeSlot, List.append_assoc, hvalue,
      readCorrection_encodeCorrection]

/-! ### The token of slots that do not collide (R69) -/

theorem slotReg_eq_zero_of {m : AddressingMethod} {op : Option Operand} (h : m = .register → op = none) :
    slotReg m op = 0#3 := by
  by_cases hm : m = .register
  · rw [h hm, slotReg_none]
  · exact slotReg_of_ne hm op

theorem slotRm_eq_zero_of {m : AddressingMethod} {op : Option Operand} (h : m = .registerOrMemoryAddress → op = none) :
    slotRm m op = 0#3 := by
  by_cases hm : m = .registerOrMemoryAddress
  · rw [h hm, slotRm_none]
  · exact slotRm_of_ne hm op

/-- Two slots with operands do not share a token method. -/
theorem not_both_of_collisionFree {r : Request} {v : Variant} (hv : r.variant = some v) (h : r.collisionFree = true)
    {m : AddressingMethod} (hm : m = .register ∨ m = .registerOrMemoryAddress) {o1 o2 : Operand}
    (h1 : r.eff1 = some o1) (h2 : r.eff2 = some o2) (hm1 : v.method1 = m) : v.method2 ≠ m := by
  intro hm2
  rw [Request.collisionFree, hv, h1, h2] at h
  rcases hm with rfl | rfl <;> simp [hm1, hm2] at h

theorem tokenHolds_slot1 {r : Request} {v : Variant} (hv : r.variant = some v) (hcf : r.collisionFree = true)
    {o : Operand} (ho : r.eff1 = some o) : TokenHolds (encodeToken v r.eff1 r.eff2) v.method1 o.value := by
  rcases o with ⟨x, c, ty⟩
  rintro g rfl
  have hother {m : AddressingMethod} (hm : m = .register ∨ m = .registerOrMemoryAddress) (hm1 : v.method1 = m)
      (hm2 : v.method2 = m) : r.eff2 = none := by
    by_contra hne
    obtain ⟨o2, ho2⟩ := Option.ne_none_iff_exists'.mp hne
    exact not_both_of_collisionFree hv hcf hm ho ho2 hm1 hm2
  constructor
  · intro hm
    rw [encodeToken, regField_tokenBits, slotReg_eq_zero_of (hother (.inl rfl) hm), hm, ho]
    exact BitVec.or_zero
  · intro hm
    rw [encodeToken, rmField_tokenBits, slotRm_eq_zero_of (hother (.inr rfl) hm), hm, ho]
    exact BitVec.or_zero

theorem tokenHolds_slot2 {r : Request} {v : Variant} (hv : r.variant = some v) (hcf : r.collisionFree = true)
    {o : Operand} (ho : r.eff2 = some o) : TokenHolds (encodeToken v r.eff1 r.eff2) v.method2 o.value := by
  rcases o with ⟨x, c, ty⟩
  rintro g rfl
  have hother {m : AddressingMethod} (hm : m = .register ∨ m = .registerOrMemoryAddress) (hm2 : v.method2 = m)
      (hm1 : v.method1 = m) : r.eff1 = none := by
    by_contra hne
    obtain ⟨o1, ho1⟩ := Option.ne_none_iff_exists'.mp hne
    exact not_both_of_collisionFree hv hcf hm ho1 ho hm1 hm2
  constructor
  · intro hm
    rw [encodeToken, regField_tokenBits, slotReg_eq_zero_of (hother (.inl rfl) hm), hm, ho]
    exact BitVec.zero_or
  · intro hm
    rw [encodeToken, rmField_tokenBits, slotRm_eq_zero_of (hother (.inr rfl) hm), hm, ho]
    exact BitVec.zero_or

/-! ### Reading a request back -/

theorem eff2_eq_op2 {r : Request} (h : r.op2NeedsOp1 = true) : r.eff2 = r.op2 := by
  rcases r with ⟨o, m, _ | o1, _ | o2⟩
  · rfl
  · cases h
  · rfl
  · rfl

theorem wf_parts {r : Request} (h : r.wf = true) : r.opcode.wf = true ∧ r.declared = true ∧ r.op2NeedsOp1 = true ∧
    r.slot1Ok = true ∧ r.slot2Ok = true := by
  simpa [Request.wf, and_assoc] using h

/-- What a reader knows of a request of variant v (R59), with any opcode bytes in the place of its own. -/
def readerKnows (r : Request) (v : Variant) (bytes : List Byte) : Request :=
  ⟨{ r.opcode with bytes := bytes }, r.mnemonic, eraseOperand r.opcode.hasRegisterToken v.method1 r.op1,
    eraseOperand r.opcode.hasRegisterToken v.method2 r.op2⟩

theorem template_eq_readerKnows {r : Request} {v : Variant} (hv : r.variant = some v) :
    r.template = readerKnows r v [0#8] := by
  simp [Request.template, readerKnows, hv]

/-- The reader's token, where the opcode has one. -/
theorem readToken_encodeToken (hasToken : Bool) (t : Byte) (rest : List Byte) :
    ∃ t', (hasToken = true → t' = t) ∧
      readToken hasToken ((if hasToken then [t] else []) ++ rest) = .ok (t', rest) := by
  cases hasToken with
  | false => exact ⟨0#8, by simp, rfl⟩
  | true => exact ⟨t, fun _ => rfl, rfl⟩

/-- R46: the layout of a well-formed request without collisions reads back. -/
theorem readRequest_encodeRequest {r : Request} {v : Variant} (hwf : r.wf = true) (hcf : r.collisionFree = true)
    (hv : r.variant = some v) (bytes : List Byte) : readRequest (readerKnows r v bytes) (encodeRequest r) = .ok r := by
  obtain ⟨hw, -, h21, hs1, hs2⟩ := wf_parts hwf
  obtain ⟨hlen, -⟩ := OpCode.wf_iff.mp hw
  obtain ⟨b, hb⟩ := List.length_eq_one_iff.mp hlen
  have heff2 := eff2_eq_op2 h21
  have hvar : (readerKnows r v bytes).variant = some v := hv
  obtain ⟨t, ht, htok⟩ := readToken_encodeToken r.opcode.hasRegisterToken (encodeToken v r.eff1 r.eff2)
    (encodeSlot v.method1 v.size1 r.op1 ++ (encodeSlot v.method2 v.size2 r.op2 ++ []))
  have h1 := readSlot_encodeSlot (t := t) ((slot1Ok_iff hv).mp hs1)
    (fun hh o ho => ht hh ▸ tokenHolds_slot1 hv hcf ho) (encodeSlot v.method2 v.size2 r.op2 ++ [])
  have h2 := readSlot_encodeSlot (t := t) ((slot2Ok_iff hv).mp hs2)
    (fun hh o ho => ht hh ▸ tokenHolds_slot2 hv hcf ho) []
  rw [heff2] at h2
  have hbytes : encodeRequest r = b :: ((if r.opcode.hasRegisterToken then [encodeToken v r.eff1 r.eff2] else []) ++
      (encodeSlot v.method1 v.size1 r.op1 ++ (encodeSlot v.method2 v.size2 r.op2 ++ []))) := by
    rw [encodeRequest_of_variant hv, hb, heff2]
    simp [Request.eff1]
  simp only [hbytes, readRequest, hvar]
  simp only [readerKnows, htok]
  rw [show r.op1 = r.eff1 from rfl]
  simp only [h1, h2, if_true]
  rw [← hb]
  rfl

/-- The mnemonic of a well-formed request selects a variant. -/
theorem exists_variant_of_wf {r : Request} (h : r.wf = true) : ∃ v, r.variant = some v := by
  obtain ⟨hw, hd, -, -, -⟩ := wf_parts h
  exact exists_variant_of_declared hw hd

/-- Settles O47: a row by its field; a request by reading its layout back. -/
theorem decodeOfEncodeIsTheInstruction : Obligations.DecodeOfEncodeIsTheInstruction := by
  intro i hwf hcf
  cases i with
  | encode r =>
    obtain ⟨v, hv⟩ := exists_variant_of_wf hwf
    have hread := readRequest_encodeRequest hwf hcf hv [0#8]
    rw [← template_eq_readerKnows hv] at hread
    have hr : r.wf = true := hwf
    simp [Instr.field, encode, decode, hread, hr]
  | add o1 o2 =>
    have hr : (addRequest o1 o2).wf = true := hwf
    have hread : readRequest (addRequest (addRequest o1 o2).template.op1 (addRequest o1 o2).template.op2)
        (encodeRequest (addRequest o1 o2)) = .ok (addRequest o1 o2) :=
      readRequest_encodeRequest hwf hcf (addRequest_variant o1 o2) [0x01#8]
    simp only [Instr.field, encode, decode, hread, hr]
    rfl
  | _ => exact decode_encode_row rfl

/-! ### The words written out -/

/-- Settles O49: the two rows are one byte, read as the address row. -/
theorem addressAndBasePointerTokensCoincide : Obligations.AddressAndBasePointerTokensCoincide :=
  fun g => ⟨rfl, decode_encode_row (i := .tokAbs g) rfl⟩

/-- Settles O50: the sample words are the encodings of their instructions. -/
theorem sampleWordsDecode : Obligations.SampleWordsDecode :=
  ⟨rfl, rfl, rfl, rfl, rfl, rfl, rfl, rfl, rfl, rfl⟩

end Sys2Proof.Machine
end
